-- ==== Sys2Proof/Word.lean ====
section
/-! DEFINITION. The plain types: register words, bytes, text. -/

namespace Sys2Proof

/-- A register's 32 bits (spec R12 `XLEN`, R103); its value is the signed reading, `BitVec.toInt`. -/
abbrev Word := BitVec 32

/-- A byte of the data store (spec R14, R220). -/
abbrev Byte := BitVec 8

/-- A Unicode code point (spec R18): 0 to 0x10FFFF, the surrogates 0xD800 to 0xDFFF among them. -/
abbrev CodePoint := Fin 0x110000

/-- A string of Unicode code points (spec R18): an instruction line, a token, a label, a register name. -/
abbrev Text := List CodePoint

/-- The code point of a Lean character. -/
def cp (c : Char) : CodePoint := ⟨c.toNat, c.valid.elim (fun h => Nat.lt_trans h (by decide)) And.right⟩

/-- A text given by Lean characters. -/
def chars (cs : List Char) : Text := cs.map cp

/-- A text given by a Lean string. -/
def text (s : String) : Text := chars s.toList

/-- The index of a register (spec R12 `NREGS` = 32). -/
abbrev RegIndex := Fin 32

end Sys2Proof
end

