-- ==== Sys2Proof/Syntax.lean ====
section
/-! DEFINITION. Instructions, one constructor per row of spec/opcode_table.json. An instruction carries its operand TOKENS:
the spec parses operands when the instruction executes, not when it is decoded (R306), and a token that does not fit is a
fault of the execution (R311 to R326). -/

namespace Sys2Proof

/-- The instruction class (spec R304, R305): it selects the cycle weight and nothing else. -/
inductive Cls where
  | r
  | i
  | j
  deriving DecidableEq, Repr

/-- The instruction set (spec R3, R330): the operand tokens of one line; `other` is the row `*`, every mnemonic that has no
row of its own, and carries that mnemonic. -/
inductive Instr where
  | li (operands : List Text)
  | la (operands : List Text)
  | add (operands : List Text)
  | addi (operands : List Text)
  | j (operands : List Text)
  | beq (operands : List Text)
  | sw (operands : List Text)
  | sb (operands : List Text)
  | jal (operands : List Text)
  | sub (operands : List Text)
  | and (operands : List Text)
  | or (operands : List Text)
  | other (op : Text) (operands : List Text)
  deriving DecidableEq, Repr

end Sys2Proof
end

