-- ==== Sys2Proof/Machine/Text.lean ====
section
/-! DEFINITION. The text functions the decoder, the loader and the data store use (spec R302, R303, R203, R223). -/

namespace Sys2Proof

/-- Whitespace (spec R302): space, tab, LF, VT, FF, CR. -/
def isWs (c : CodePoint) : Bool :=
  c.val = 0x20 || c.val = 0x09 || c.val = 0x0A || c.val = 0x0B || c.val = 0x0C || c.val = 0x0D

/-- Every comma becomes one space (spec R302). -/
def replaceCommas (t : Text) : Text := t.map fun c => if c = cp ',' then cp ' ' else c

/-- Adds a token that has ended to the tokens after it; an empty run is no token. -/
def closeToken (acc : Text × List Text) : List Text :=
  if acc.1 = [] then acc.2 else acc.1 :: acc.2

/-- One code point, read from the right: the token being built and the tokens after it. -/
def splitStep (c : CodePoint) (acc : Text × List Text) : Text × List Text :=
  if isWs c then ([], closeToken acc) else (c :: acc.1, acc.2)

/-- `split_ws` (spec R302): the maximal non-empty runs without whitespace. -/
def splitWs (t : Text) : List Text := closeToken (t.foldr splitStep ([], []))

/-- The tokens of a line (spec R300, R302). -/
def tokenize (line : Text) : List Text := splitWs (replaceCommas line)

/-- A capital ASCII letter becomes its lowercase letter, any other code point stays (spec R303). -/
def lowerChar (c : CodePoint) : CodePoint :=
  if 0x41 ≤ c.val ∧ c.val ≤ 0x5A then Fin.ofNat 0x110000 (c.val + 0x20) else c

/-- `ascii_lower` (spec R303). -/
def asciiLower (t : Text) : Text := t.map lowerChar

/-- Trailing whitespace removed (spec R203 `trim_right`). -/
def trimRight (t : Text) : Text := (t.reverse.dropWhile isWs).reverse

/-- The line's last code point is `:` (spec R202). -/
def endsWithColon (t : Text) : Bool := t.getLast? = some (cp ':')

/-- The bytes of one code point, in the pattern of UTF-8 (spec R223). A surrogate has three bytes here; `utf8` gives it none. -/
def codePointBytes (c : CodePoint) : List Byte :=
  let n := c.val
  if n < 0x80 then [BitVec.ofNat 8 n]
  else if n < 0x800 then [BitVec.ofNat 8 (0xC0 + n / 0x40), BitVec.ofNat 8 (0x80 + n % 0x40)]
  else if n < 0x10000 then
    [BitVec.ofNat 8 (0xE0 + n / 0x1000), BitVec.ofNat 8 (0x80 + n / 0x40 % 0x40), BitVec.ofNat 8 (0x80 + n % 0x40)]
  else
    [BitVec.ofNat 8 (0xF0 + n / 0x40000), BitVec.ofNat 8 (0x80 + n / 0x1000 % 0x40),
     BitVec.ofNat 8 (0x80 + n / 0x40 % 0x40), BitVec.ofNat 8 (0x80 + n % 0x40)]

/-- The bytes of a text, surrogates too: how the model numbers a line as a word (notes/assumptions/4.md). -/
def textBytes (t : Text) : List Byte := t.flatMap codePointBytes

/-- A surrogate code point, which UTF-8 has no form for. -/
def isSurrogate (c : CodePoint) : Bool := 0xD800 ≤ c.val && c.val ≤ 0xDFFF

/-- `utf8(t)` (spec R223): none where the text holds a surrogate (notes/assumptions/16.md). -/
def utf8 (t : Text) : Option (List Byte) := if t.any isSurrogate then none else some (textBytes t)

/-- Puts the code point `n` before the rest, if `n` is a code point and `bytes` are its bytes. -/
def acceptCodePoint (n : Nat) (bytes : List Byte) (rest : Option Text) : Option Text :=
  if h : n < 0x110000 then
    if codePointBytes ⟨n, h⟩ = bytes then rest.map (⟨n, h⟩ :: ·) else none
  else none

/-- The text some bytes are the bytes of, if they are one's (used by `decodeTableWord` alone). -/
def bytesText : List Byte → Option Text
  | [] => some []
  | b0 :: r0 =>
    if b0.toNat < 0x80 then acceptCodePoint b0.toNat [b0] (bytesText r0)
    else match r0 with
      | [] => none
      | b1 :: r1 =>
        if b0.toNat < 0xE0 then acceptCodePoint (b0.toNat % 0x20 * 0x40 + b1.toNat % 0x40) [b0, b1] (bytesText r1)
        else match r1 with
          | [] => none
          | b2 :: r2 =>
            if b0.toNat < 0xF0 then
              acceptCodePoint ((b0.toNat % 0x10 * 0x40 + b1.toNat % 0x40) * 0x40 + b2.toNat % 0x40) [b0, b1, b2] (bytesText r2)
            else match r2 with
              | [] => none
              | b3 :: r3 =>
                acceptCodePoint
                  (((b0.toNat % 0x08 * 0x40 + b1.toNat % 0x40) * 0x40 + b2.toNat % 0x40) * 0x40 + b3.toNat % 0x40)
                  [b0, b1, b2, b3] (bytesText r3)

end Sys2Proof
end

