-- ==== Sys2Proof/WellFormed.lean ====
section
/-! DEFINITION. Well-formed instructions: those whose mnemonic and operands are tokens (spec R18, R302), and whose
mnemonic, where it is carried, is a lowercased one (R303) with no row of its own (R502). -/

namespace Sys2Proof

/-- A code point a token may hold (spec R302): no whitespace, no comma. -/
def isTokenChar (c : CodePoint) : Bool := !isWs c && c != cp ','

/-- A token (spec R18, R302): not empty, no whitespace, no comma. -/
def isToken (t : Text) : Bool := !t.isEmpty && t.all isTokenChar

/-- The twelve mnemonics that have a row of their own (spec R330). -/
def namedOps : List Text :=
  [chars ['l', 'i'], chars ['l', 'a'], chars ['a', 'd', 'd'], chars ['a', 'd', 'd', 'i'], chars ['j'],
   chars ['b', 'e', 'q'], chars ['s', 'w'], chars ['s', 'b'], chars ['j', 'a', 'l'], chars ['s', 'u', 'b'],
   chars ['a', 'n', 'd'], chars ['o', 'r']]

/-- A mnemonic of the row `*` (spec R502): a token, lowercased, and none of the twelve. -/
def isOtherOp (op : Text) : Bool := isToken op && asciiLower op == op && !namedOps.contains op

/-- The instructions that some line stands for. -/
def Instr.wf : Instr → Bool
  | .li ops => ops.all isToken
  | .la ops => ops.all isToken
  | .add ops => ops.all isToken
  | .addi ops => ops.all isToken
  | .j ops => ops.all isToken
  | .beq ops => ops.all isToken
  | .sw ops => ops.all isToken
  | .sb ops => ops.all isToken
  | .jal ops => ops.all isToken
  | .sub ops => ops.all isToken
  | .and ops => ops.all isToken
  | .or ops => ops.all isToken
  | .other op ops => isOtherOp op && ops.all isToken

end Sys2Proof
end

