-- ==== Sys2Proof/Decode.lean ====
section
/-! DEFINITION. Decoding a line (spec R300 to R306, R330), and the encoder that writes the line of an instruction. -/

namespace Sys2Proof

/-- `class_of` (spec R304). -/
def classOf (op : Text) : Cls :=
  if op = chars ['j'] ∨ op = chars ['j', 'a', 'l'] then .j
  else if op = chars ['a', 'd', 'd'] ∨ op = chars ['s', 'u', 'b'] ∨ op = chars ['a', 'n', 'd'] ∨ op = chars ['o', 'r'] then .r
  else .i

/-- What `decode` gives (spec R300), beside the tokens themselves: mnemonic, operands, class. -/
structure Decoded where
  op       : Text
  operands : List Text
  cls      : Cls
  deriving DecidableEq, Repr

/-- `decode(s)` (spec R300): none on a line without a token, which LOAD refuses (R204). -/
def decode (line : Text) : Option Decoded :=
  match tokenize line with
  | [] => none
  | tok :: operands => some { op := asciiLower tok, operands := operands, cls := classOf (asciiLower tok) }

/-- The instruction a mnemonic and its operands stand for: `op` alone selects the row (spec R330, R412). -/
def Instr.ofOp (op : Text) (operands : List Text) : Instr :=
  if op = chars ['l', 'i'] then .li operands
  else if op = chars ['l', 'a'] then .la operands
  else if op = chars ['a', 'd', 'd'] then .add operands
  else if op = chars ['a', 'd', 'd', 'i'] then .addi operands
  else if op = chars ['j'] then .j operands
  else if op = chars ['b', 'e', 'q'] then .beq operands
  else if op = chars ['s', 'w'] then .sw operands
  else if op = chars ['s', 'b'] then .sb operands
  else if op = chars ['j', 'a', 'l'] then .jal operands
  else if op = chars ['s', 'u', 'b'] then .sub operands
  else if op = chars ['a', 'n', 'd'] then .and operands
  else if op = chars ['o', 'r'] then .or operands
  else .other op operands

/-- The instruction of a line (spec R300, R412). -/
def decodeLine (line : Text) : Option Instr := (decode line).map fun d => Instr.ofOp d.op d.operands

/-- The mnemonic of an instruction, as the opcode table spells it (spec R330). -/
def Instr.op : Instr → Text
  | .li _ => chars ['l', 'i']
  | .la _ => chars ['l', 'a']
  | .add _ => chars ['a', 'd', 'd']
  | .addi _ => chars ['a', 'd', 'd', 'i']
  | .j _ => chars ['j']
  | .beq _ => chars ['b', 'e', 'q']
  | .sw _ => chars ['s', 'w']
  | .sb _ => chars ['s', 'b']
  | .jal _ => chars ['j', 'a', 'l']
  | .sub _ => chars ['s', 'u', 'b']
  | .and _ => chars ['a', 'n', 'd']
  | .or _ => chars ['o', 'r']
  | .other op _ => op

/-- The operand tokens of an instruction. -/
def Instr.operands : Instr → List Text
  | .li ops => ops
  | .la ops => ops
  | .add ops => ops
  | .addi ops => ops
  | .j ops => ops
  | .beq ops => ops
  | .sw ops => ops
  | .sb ops => ops
  | .jal ops => ops
  | .sub ops => ops
  | .and ops => ops
  | .or ops => ops
  | .other _ ops => ops

/-- The class the opcode table gives the instruction's row (spec R330). -/
def Instr.cls : Instr → Cls
  | .li _ => .i
  | .la _ => .i
  | .add _ => .r
  | .addi _ => .i
  | .j _ => .j
  | .beq _ => .i
  | .sw _ => .i
  | .sb _ => .i
  | .jal _ => .j
  | .sub _ => .r
  | .and _ => .r
  | .or _ => .r
  | .other _ _ => .i

/-- Tokens with one space between them (spec R340, commas being optional). -/
def joinTokens : List Text → Text
  | [] => []
  | [t] => t
  | t :: u :: ts => t ++ cp ' ' :: joinTokens (u :: ts)

/-- The line of an instruction. A line that would end in `:` gets a comma at its end, a separator of no token (R302),
since a line ending in `:` defines a label (R202). -/
def encode (i : Instr) : Text :=
  let line := joinTokens (i.op :: i.operands)
  if endsWithColon line then line ++ [cp ','] else line

/-- The `n` low bytes of `w`, the least significant first. -/
def wordBytes : Nat → Nat → List Byte
  | 0, _ => []
  | n + 1, w => BitVec.ofNat 8 w :: wordBytes n (w / 256)

/-- Bytes without the zero bytes at their end. -/
def dropTrailingZeros (bs : List Byte) : List Byte := (bs.reverse.dropWhile (· = 0#8)).reverse

/-- The line a word stands for (notes/assumptions/4.md): its bytes, the first the least significant, zero bytes at the end
dropped, read in the pattern of UTF-8. The spec has no binary form (R301). -/
def textOfWord (nbits w : Nat) : Option Text :=
  bytesText (dropTrailingZeros (wordBytes ((nbits + 7) / 8) (w % 2 ^ nbits)))

/-- The instruction the decoder reads from a word of `nbits` bits (notes/assumptions/4.md). -/
def decodeTableWord (nbits w : Nat) : Option Instr := (textOfWord nbits w).bind decodeLine

/-- The number whose bytes are `bs`, the least significant first: the word of a line (inverse of `wordBytes`). -/
def wordOfBytes : List Byte → Nat
  | [] => 0
  | b :: bs => b.toNat + 256 * wordOfBytes bs

end Sys2Proof
end

