-- ==== Sys2Proof/Config.lean ====
section
/-! DEFINITION. The parameters of the block (spec R12) and the values they have after reset. State carries them as
fields that no step writes (notes/assumptions/1.md), so a statement about every state is one about all their values. -/

namespace Sys2Proof

/-- `INT_STORE_OVERFLOW` (spec R12, R222): what an integer store does with a value outside the signed range of its size. -/
inductive StoreOverflow where
  | truncate
  | fault
  deriving DecidableEq, Repr

/-- The parameters fixed with the block (spec R12, R401): `MEM_SIZE`, `INT_STORE_OVERFLOW`, `REG_NAMES`. -/
structure Block where
  memSize  : Nat
  overflow : StoreOverflow
  regNames : Vector Text 32
  deriving DecidableEq, Repr

/-- The configuration LOAD fixes for a run (spec R150, R401): `FREQ_HZ`, `W_R`, `W_I`, `W_J`. -/
structure RunConfig where
  freqHz  : Rat
  weightR : Nat
  weightI : Nat
  weightJ : Nat
  deriving DecidableEq, Repr

/-- `MEM_SIZE - 1`. The spec leaves `MEM_SIZE` OPEN, a positive natural (R12, R13): a constant with no body
(notes/assumptions/3.md). -/
opaque Config.memSizePred : Nat

/-- `FREQ_HZ` is OPEN too, a positive rational (R12): its numerator less 1 (notes/assumptions/3.md). -/
opaque Config.freqNumPred : Nat

/-- The denominator of `FREQ_HZ`, less 1 (notes/assumptions/3.md). -/
opaque Config.freqDenPred : Nat

/-- `MEM_SIZE` of the reset state: some positive natural. -/
def Config.memSize : Nat := Config.memSizePred + 1

/-- `FREQ_HZ` of the reset state: some positive rational. -/
def Config.freqHz : Rat := mkRat (Config.freqNumPred + 1) (Config.freqDenPred + 1)

/-- The default of `REG_NAMES` (spec R101). -/
def Config.regNames : Vector Text 32 :=
  #v[chars ['$', 'z', 'e', 'r', 'o'], chars ['$', 'a', 't'], chars ['$', 'v', '0'], chars ['$', 'v', '1'],
     chars ['$', 'a', '0'], chars ['$', 'a', '1'], chars ['$', 'a', '2'], chars ['$', 'a', '3'],
     chars ['$', 't', '0'], chars ['$', 't', '1'], chars ['$', 't', '2'], chars ['$', 't', '3'],
     chars ['$', 't', '4'], chars ['$', 't', '5'], chars ['$', 't', '6'], chars ['$', 't', '7'],
     chars ['$', 's', '0'], chars ['$', 's', '1'], chars ['$', 's', '2'], chars ['$', 's', '3'],
     chars ['$', 's', '4'], chars ['$', 's', '5'], chars ['$', 's', '6'], chars ['$', 's', '7'],
     chars ['$', 't', '8'], chars ['$', 't', '9'], chars ['$', 'k', '0'], chars ['$', 'k', '1'],
     chars ['$', 'g', 'p'], chars ['$', 's', 'p'], chars ['$', 'f', 'p'], chars ['$', 'r', 'a']]

/-- The block of the reset state: `MEM_SIZE` open, the other two at the spec's defaults (R12). -/
def Config.block : Block where
  memSize := Config.memSize
  overflow := .truncate
  regNames := Config.regNames

/-- The configuration of the reset state: `FREQ_HZ` open, the weights at the spec's default 1 (R12, R642). -/
def Config.run : RunConfig where
  freqHz := Config.freqHz
  weightR := 1
  weightI := 1
  weightJ := 1

end Sys2Proof
end

