-- ==== Sys2Proof/Machine/State.lean ====
section
/-! DEFINITION. The state (spec R100, R200, R220), as plain data, and the state after reset (R700). -/

namespace Sys2Proof.Machine

/-- The size of a data access (spec R12, R228): 1, 2 or 4 bytes. -/
inductive Size where
  | byte
  | halfword
  | word
  deriving DecidableEq, Repr

/-- A provenance tag (spec R220): an integer write of a size, or a textual write of a size and the string written. -/
inductive Tag where
  | int (size : Size)
  | text (size : Size) (value : Text)
  deriving DecidableEq, Repr

/-- The data store (spec R220). `cells` are the bytes B, strictly rising by address, none of them zero: an unlisted address
reads 0, the spec's value at reset. `tags` is the provenance map P, strictly rising by address. -/
structure Memory where
  cells : List Host.Cell
  tags  : List (Nat × Tag)
  deriving DecidableEq, Repr

/-- Addresses strictly rise. -/
abbrev Rising {α : Type} (l : List (Nat × α)) : Prop := l.Pairwise fun p q => p.1 < q.1

/-- The canonical form: addresses strictly rise, no cell holds what an unlisted address reads as. -/
abbrev Memory.wf (m : Memory) : Prop := Rising m.cells ∧ (∀ c ∈ m.cells, c.2 ≠ 0#8) ∧ Rising m.tags

/-- Why a LOAD refuses a program (spec R204). -/
inductive Malformed where
  | noInstruction
  | emptyLabel
  | duplicateLabel
  | noToken
  | tooLong
  deriving DecidableEq, Repr

/-- Which item of the configuration a LOAD refuses (spec R401). -/
inductive ConfigItem where
  | frequency
  | weightR
  | weightI
  | weightJ
  deriving DecidableEq, Repr

/-- The six error kinds (spec R601). -/
inductive ErrorKind where
  | undefinedLabel
  | invalidOperandFormat
  | sizeMismatch
  | outOfBounds
  | malformedProgram
  | invalidConfiguration
  deriving DecidableEq, Repr

/-- An error kind with the information R601 records for it. `InvalidOperandFormat` has two forms, the offending token, and
the mnemonic and operand list of a count error; `SizeMismatch` two, an integer value and a text. -/
inductive Error where
  | undefinedLabel (label : Text)
  | invalidOperand (token : Text)
  | operandCount (op : Text) (operands : List Text)
  | sizeMismatch (addr : Int) (size : Size) (value : Int)
  | textSizeMismatch (addr : Int) (size : Size) (value : Text)
  | outOfBounds (addr : Int) (size : Size)
  | malformedProgram (reason : Malformed) (line : Option Text)
  | invalidConfiguration (item : ConfigItem)
  deriving DecidableEq, Repr

/-- The run status (spec R151). `faulted` holds the error with the index and text R410 adds to it. -/
inductive Status where
  | running
  | halted
  | faulted (error : Error) (index : Nat) (text : Text)
  deriving DecidableEq, Repr

/-- An instruction entry of the program store (spec R209, R306). -/
structure Entry where
  text     : Text
  op       : Text
  operands : List Text
  cls      : Cls
  deriving DecidableEq, Repr

/-- The machine's state: the record of R100, then what LOAD fixes for the run and no step writes, the program store and
label table (R200, R205), the block's parameters and the configuration (R12, R150). -/
structure State where
  regs     : Vector Word 32
  recency  : List RegIndex
  pc       : Nat
  status   : Status
  cycles   : Nat
  weighted : Nat
  last     : Option Nat
  mem      : Memory
  prog     : List Entry
  labels   : List (Text × Nat)
  block    : Block
  config   : RunConfig
  deriving DecidableEq, Repr

/-- How a run ends with an error (spec R404, R600, R601). Stopping is what the hardware does too, so both are safe. -/
inductive Fault where
  /-- `raise K(info)` inside an instruction rule (R610): raised by every meaning that parses operands, resolves a label or
  stores; STEP turns it into `ended`. Safe. -/
  | raise (error : Error)
  /-- STEP's outcome `Fault(K, info, S)` (R404): raised by `step` alone; `after` is the state before the step with the
  status Faulted, which R415 says never leaves that status. Safe. -/
  | ended (error : Error) (index : Nat) (text : Text) (after : State)
  deriving DecidableEq, Repr

/-- Why there is no outcome to give. -/
inductive Refusal where
  /-- An instruction that has no meaning yet; raised by a refused arm of `exec` only. Safe. -/
  | notModelled (mnemonic : String)
  /-- STEP or an observation before a LOAD has succeeded, undefined (R401) and refused (92 D30, 93 U11); raised by `step` and by
  `State.observe` when the program store is empty, which no LOAD leaves (R204). Safe. -/
  | noProgramLoaded
  deriving DecidableEq, Repr

/-- The state LOAD leaves (spec R402, R700), for a program store, a label table, a block and a configuration. -/
def State.loaded (block : Block) (config : RunConfig) (prog : List Entry) (labels : List (Text × Nat)) : State where
  regs := Vector.replicate 32 0#32
  recency := []
  pc := 0
  status := .running
  cycles := 0
  weighted := 0
  last := none
  mem := { cells := [], tags := [] }
  prog := prog
  labels := labels
  block := block
  config := config

/-- The machine right after reset, no program loaded yet (spec R700; notes/assumptions/2.md): LOAD is the only reset the
block has, and it brings the program. -/
def State.reset : State := State.loaded Config.block Config.run [] []

end Sys2Proof.Machine
end

