-- ==== Sys2Proof/Machine/Ops.lean ====
section
/-! DEFINITION. The named operations over registers, memory, labels, the program counter and the counters, and raising an
error (spec R15, R16). -/

namespace Sys2Proof.Machine

/-- What an instruction or a step answers. -/
abbrev Answer := Host.Outcome State Fault Refusal

/-! Width functions (spec R14, R15). -/

/-- `wrap32(v)` (spec R15). -/
def wrap32 (v : Int) : Int := (v + 2 ^ 31) % 2 ^ 32 - 2 ^ 31

/-- `v[8k+7 : 8k]` (spec R14): byte `k` of an integer in its two's-complement view. -/
def byteOf (v : Int) (k : Nat) : Byte := BitVec.ofInt 8 (v / 2 ^ (8 * k))

/-- `u32(v)` (spec R15). -/
def u32 (v : Int) : Int := v % 2 ^ 32

/-- `sext_N(v)` (spec R15), for `0 <= v < 2^N`. -/
def sext (n : Nat) (v : Nat) : Int := if 2 ^ (n - 1) ≤ v then (v : Int) - 2 ^ n else v

/-- How many bytes an access of a size moves (spec R12). -/
def Size.bytes : Size → Nat
  | .byte => 1
  | .halfword => 2
  | .word => 4

/-- The size of a tag (spec R220). -/
def Tag.size : Tag → Size
  | .int n => n
  | .text n _ => n

/-! Error kinds (spec R601). -/

/-- The kind of an error. -/
def Error.kind : Error → ErrorKind
  | .undefinedLabel _ => .undefinedLabel
  | .invalidOperand _ => .invalidOperandFormat
  | .operandCount _ _ => .invalidOperandFormat
  | .sizeMismatch _ _ _ => .sizeMismatch
  | .textSizeMismatch _ _ _ => .sizeMismatch
  | .outOfBounds _ _ => .outOfBounds
  | .malformedProgram _ _ => .malformedProgram
  | .invalidConfiguration _ => .invalidConfiguration

/-- The code of a kind (spec R601). -/
def ErrorKind.code : ErrorKind → Nat
  | .undefinedLabel => 1
  | .invalidOperandFormat => 2
  | .sizeMismatch => 3
  | .outOfBounds => 4
  | .malformedProgram => 5
  | .invalidConfiguration => 6

/-! Finite maps as lists. -/

/-- The value listed for a key, the first one. -/
def lookupKey {κ α : Type} [DecidableEq κ] (k : κ) : List (κ × α) → Option α
  | [] => none
  | (k', v) :: rest => if k = k' then some v else lookupKey k rest

/-- Lists a value for an address, in the address's place. -/
def putAt {α : Type} (a : Nat) (v : α) : List (Nat × α) → List (Nat × α)
  | [] => [(a, v)]
  | (b, w) :: rest => if a < b then (a, v) :: (b, w) :: rest else if a = b then (a, v) :: rest else (b, w) :: putAt a v rest

/-- Lists nothing for an address. -/
def dropAt {α : Type} (a : Nat) (l : List (Nat × α)) : List (Nat × α) := l.filter fun p => p.1 ≠ a

/-! The data store (spec R220 to R226). -/

/-- The byte `B[a]` (spec R220): 0 where nothing is listed. -/
def Memory.byte (m : Memory) (a : Nat) : Byte := (lookupKey a m.cells).getD 0#8

/-- The tag `P(a)` (spec R220). -/
def Memory.tag (m : Memory) (a : Nat) : Option Tag := lookupKey a m.tags

/-- `B[a] <- b`, keeping the canonical form. -/
def Memory.setByte (m : Memory) (a : Nat) (b : Byte) : Memory :=
  { m with cells := if b = 0#8 then dropAt a m.cells else putAt a b m.cells }

/-- `for k: B[a+k] <- bs[k]`. -/
def Memory.setBytes (m : Memory) (a : Nat) : List Byte → Memory
  | [] => m
  | b :: bs => (m.setByte a b).setBytes (a + 1) bs

/-- `P(a) <- t` (spec R226): other entries stay. -/
def Memory.setTag (m : Memory) (a : Nat) (t : Tag) : Memory := { m with tags := putAt a t m.tags }

/-- `sum over k in 0..n-1 of B[a+k] * 256^k` (spec R224). -/
def Memory.bytesValue (m : Memory) (a : Nat) : Nat → Nat
  | 0 => 0
  | n + 1 => (m.byte a).toNat + 256 * m.bytesValue (a + 1) n

/-- What a read of the data store answers (spec R224). -/
inductive Value where
  | int (v : Int)
  | text (t : Text)
  deriving DecidableEq, Repr

/-- What is at `a` for an access of a size, once the bounds are checked (spec R224). -/
def Memory.value (m : Memory) (a : Nat) (n : Size) : Value :=
  match m.tag a with
  | some (.text n' t) => if n' = n then .text t else .int (sext (8 * n.bytes) (m.bytesValue a n.bytes))
  | _ => .int (sext (8 * n.bytes) (m.bytesValue a n.bytes))

/-- In bounds (spec R221). -/
abbrev InBounds (memSize : Nat) (a : Int) (n : Size) : Prop := 0 ≤ a ∧ a + n.bytes ≤ memSize

/-- The bytes of an integer, little-endian (spec R222, R230). -/
def littleEndian (v : Int) (n : Nat) : List Byte := (List.range n).map (byteOf v)

/-- A value in the signed range of a size (spec R222). -/
abbrev FitsSigned (n : Size) (v : Int) : Prop := -2 ^ (8 * n.bytes - 1) ≤ v ∧ v < 2 ^ (8 * n.bytes - 1)

/-- `MemWrite(a, n, v)` (spec R222). -/
def State.memWrite (s : State) (a : Int) (n : Size) (v : Int) : Except Error State :=
  if ¬ InBounds s.block.memSize a n then .error (.outOfBounds a n)
  else if ¬ FitsSigned n v ∧ s.block.overflow = .fault then .error (.sizeMismatch a n v)
  else .ok { s with mem := (s.mem.setBytes a.toNat (littleEndian v n.bytes)).setTag a.toNat (.int n) }

/-- `MemWriteText(a, n, t)` (spec R223): the data store's own interface, which no instruction uses (R225). A text with no
UTF-8 form has no encoded length that equals the size (notes/assumptions/16.md). -/
def State.memWriteText (s : State) (a : Int) (n : Size) (t : Text) : Except Error State :=
  match utf8 t with
  | none => .error (.textSizeMismatch a n t)
  | some bs =>
    if bs.length ≠ n.bytes then .error (.textSizeMismatch a n t)
    else if ¬ InBounds s.block.memSize a n then .error (.outOfBounds a n)
    else .ok { s with mem := (s.mem.setBytes a.toNat bs).setTag a.toNat (.text n t) }

/-- `MemRead(a, n)` (spec R224): the data store's own interface, which no instruction uses (R225). -/
def State.memRead (s : State) (a : Int) (n : Size) : Except Error Value :=
  if ¬ InBounds s.block.memSize a n then .error (.outOfBounds a n)
  else .ok (s.mem.value a.toNat n)

/-! The register file (spec R110, R111, R130). -/

/-- `x[r]` (spec R110). -/
def State.readReg (s : State) (r : RegIndex) : Int := if r = 0 then 0 else s.regs[r].toInt

/-- The recency list after a write of register `r` (spec R111, R130): `r` moved to the end, the oldest dropped beyond 32. -/
def touch (r : RegIndex) (recency : List RegIndex) : List RegIndex :=
  let moved := recency.filter (· ≠ r) ++ [r]
  moved.drop (moved.length - 32)

/-- `x[r] <- v` (spec R111). -/
def State.writeReg (s : State) (r : RegIndex) (v : Int) : State :=
  if r = 0 then s
  else { s with regs := s.regs.set r (BitVec.ofInt 32 v), recency := touch r s.recency }

/-! Labels, fetch, program counter, counters (spec R206, R207, R120, R641). -/

/-- `resolve(name)` (spec R206). -/
def State.resolve (s : State) (name : Text) : Except Error Nat :=
  match lookupKey name s.labels with
  | some k => .ok k
  | none => .error (.undefinedLabel name)

/-- `fetch(i)` (spec R207): none is `EndOfProgram`. -/
def State.fetch (s : State) (i : Nat) : Option Entry := s.prog[i]?

/-- `pc <- t` (spec R16). -/
def State.setPc (s : State) (t : Nat) : State := { s with pc := t }

/-- `W(c)` (spec R641). -/
def weight (config : RunConfig) : Cls → Nat
  | .r => config.weightR
  | .i => config.weightI
  | .j => config.weightJ

/-- The tentative state an instruction of class `c` runs on (spec R410, steps 2 and 3): `pc` advanced, the counters ticked. -/
def State.tick (s : State) (c : Cls) : State :=
  { s with pc := s.pc + 4, cycles := s.cycles + 1, weighted := s.weighted + weight s.config c }

/-- `T.last <- i` (spec R410). -/
def State.setLast (s : State) (i : Nat) : State := { s with last := some i }

/-! Raising an error and ending the run (spec R410, R610). There is no return from a fault (R612). -/

/-- What an instruction rule answers: its next state, or the error it raises (spec R610). -/
def settle : Except Error State → Answer
  | .ok s => .next s
  | .error e => .fault (.raise e)

/-- `status <- Faulted(K, info ++ (index, text))` (spec R410, R610): nothing else changes. -/
def State.enterFault (s : State) (e : Error) (index : Nat) (text : Text) : State :=
  { s with status := .faulted e index text }

/-- `status <- Halted` (spec R411): nothing else changes. -/
def State.enterHalt (s : State) : State := { s with status := .halted }

end Sys2Proof.Machine
end

