-- ==== Sys2Proof/Machine/Operands.lean ====
section
/-! DEFINITION. The operand grammars (spec R320 to R326) and, beside them, how an operand of each form is written. -/

namespace Sys2Proof.Machine

/-! Numbers. -/

/-- The value of a digit, hexadecimal digits included. -/
def digitValue (c : CodePoint) : Option Nat :=
  if 0x30 ≤ c.val ∧ c.val ≤ 0x39 then some (c.val - 0x30)
  else if 0x61 ≤ c.val ∧ c.val ≤ 0x66 then some (c.val - 0x61 + 10)
  else if 0x41 ≤ c.val ∧ c.val ≤ 0x46 then some (c.val - 0x41 + 10)
  else none

/-- The value of a digit of a base. -/
def digitOf (base : Nat) (c : CodePoint) : Option Nat := (digitValue c).filter (· < base)

/-- The number the digits spell after `acc`. -/
def numeralFrom (base : Nat) (acc : Nat) : Text → Option Nat
  | [] => some acc
  | c :: cs =>
    match digitOf base c with
    | some d => numeralFrom base (acc * base + d) cs
    | none => none

/-- One or more digits of a base, and nothing else (spec R321 `HEX+`, `OCT+`, `BIN+`). -/
def numeral (base : Nat) : Text → Option Nat
  | [] => none
  | c :: cs => numeralFrom base 0 (c :: cs)

/-- What may follow a leading `0` where only zeros may (spec R321, R325 `"0"+`). -/
def onlyZeros (t : Text) : Option Nat := if t.all (· = cp '0') then some 0 else none

/-- `BODY` after a leading `0` (spec R321). -/
def intAfterZero : Text → Option Nat
  | [] => some 0
  | c :: cs =>
    if c = cp 'x' ∨ c = cp 'X' then numeral 16 cs
    else if c = cp 'o' ∨ c = cp 'O' then numeral 8 cs
    else if c = cp 'b' ∨ c = cp 'B' then numeral 2 cs
    else onlyZeros (c :: cs)

/-- `BODY` (spec R321). -/
def intBody : Text → Option Nat
  | [] => none
  | c :: cs => if c = cp '0' then intAfterZero cs else numeral 10 (c :: cs)

/-- `INT` (spec R321), none where the token is not in the grammar. -/
def parseInt : Text → Option Int
  | [] => none
  | c :: cs =>
    if c = cp '-' then Option.map (fun n : Nat => -(n : Int)) (intBody cs)
    else if c = cp '+' then Option.map (fun n : Nat => (n : Int)) (intBody cs)
    else Option.map (fun n : Nat => (n : Int)) (intBody (c :: cs))

/-- `CHAR` (spec R322): exactly three code points, the first and last `'`. -/
def parseChar : Text → Option Int
  | [q, c, q'] => if q = cp '\'' ∧ q' = cp '\'' then some (c.val : Int) else none
  | _ => none

/-- `IMM` (spec R323). -/
def parseImm (t : Text) : Option Int :=
  match parseChar t with
  | some v => some v
  | none => parseInt t

/-! Registers and memory operands. -/

/-- `REG` (spec R320, R102): the index of the register the token names. -/
def parseReg (names : Vector Text 32) (t : Text) : Option RegIndex :=
  (List.finRange 32).find? fun i => names[i] = t

/-- `OFF` without its sign, after a leading `0` (spec R325). -/
def offsetAfterZero : Text → Option Nat
  | [] => some 0
  | c :: cs => if c = cp 'x' then numeral 16 cs else onlyZeros (c :: cs)

/-- `OFF` without its sign (spec R325). -/
def offsetBody : Text → Option Nat
  | [] => none
  | c :: cs => if c = cp '0' then offsetAfterZero cs else numeral 10 (c :: cs)

/-- `OFF` (spec R325). -/
def parseOffset : Text → Option Int
  | [] => none
  | c :: cs =>
    if c = cp '-' then Option.map (fun n : Nat => -(n : Int)) (offsetBody cs)
    else Option.map (fun n : Nat => (n : Int)) (offsetBody (c :: cs))

/-- `MEMREF` (spec R325): `OFF` holds no `(`, so the first one ends it, and the token's last code point is `)`. -/
def parseMemref (names : Vector Text 32) (t : Text) : Option (Int × RegIndex) :=
  match t.dropWhile (· ≠ cp '(') with
  | [] => none
  | _ :: rest =>
    if rest.getLast? = some (cp ')') then
      match parseOffset (t.takeWhile (· ≠ cp '(')), parseReg names rest.dropLast with
      | some off, some base => some (off, base)
      | _, _ => none
    else none

/-! Operands of an instruction that runs: a value, or the error the spec gives the token (spec R312, R320 to R326). -/

/-- A grammar's value, or `InvalidOperandFormat` of the token. -/
def orInvalid {α : Type} (tok : Text) : Option α → Except Error α
  | some v => .ok v
  | none => .error (.invalidOperand tok)

/-- `parse_reg(tok)` (spec R320). -/
def State.regOperand (s : State) (tok : Text) : Except Error RegIndex := orInvalid tok (parseReg s.block.regNames tok)

/-- `parse_int(tok)` (spec R321). -/
def intOperand (tok : Text) : Except Error Int := orInvalid tok (parseInt tok)

/-- `parse_imm(tok)` (spec R323). -/
def immOperand (tok : Text) : Except Error Int := orInvalid tok (parseImm tok)

/-- `parse_memref(tok)` (spec R325). -/
def State.memrefOperand (s : State) (tok : Text) : Except Error (Int × RegIndex) :=
  orInvalid tok (parseMemref s.block.regNames tok)

/-- The program address of a label (spec R206, R327): `4 * resolve(name)`. -/
def State.target (s : State) (name : Text) : Except Error Nat := do
  let k ← s.resolve name
  .ok (4 * k)

/-- `NUMLAB` (spec R324, R426): a number is its value, any other token is a label and gives its program address. -/
def State.numlabOperand (s : State) (tok : Text) : Except Error Int :=
  match parseInt tok with
  | some v => .ok v
  | none => do
    let a ← s.target tok
    .ok (a : Int)

/-- The count error (spec R311). -/
def wrongCount (op : Text) (operands : List Text) : Except Error State := .error (.operandCount op operands)

/-- The effective address `x[base] + offset` (spec R480), an exact integer. -/
def State.effectiveAddress (s : State) (m : Int × RegIndex) : Int := s.readReg m.2 + m.1

/-! How an operand is written. -/

/-- The digits of a number in a base. -/
def digitsText (base n : Nat) : Text := chars (Nat.toDigits base n)

/-- An integer in decimal. -/
def decimalText : Int → Text
  | .ofNat n => digitsText 10 n
  | .negSucc n => cp '-' :: digitsText 10 (n + 1)

/-- An integer in `0x` hexadecimal. -/
def hexText : Int → Text
  | .ofNat n => cp '0' :: cp 'x' :: digitsText 16 n
  | .negSucc n => cp '-' :: cp '0' :: cp 'x' :: digitsText 16 (n + 1)

/-- The memory operand `offset(base)` (spec R325), the offset in decimal. -/
def memrefText (names : Vector Text 32) (off : Int) (base : RegIndex) : Text :=
  decimalText off ++ cp '(' :: (names[base] ++ [cp ')'])

end Sys2Proof.Machine
end

