-- ==== Sys2Proof/Machine/Arithmetic.lean ====
section
/-! DEFINITION. The arithmetic family, `add` and `addi` (spec R440 to R446): exact sums, wrapped by the register write. -/

namespace Sys2Proof.Machine

/-- `add rd, rs, rt` (spec R441). -/
def execAdd (operands : List Text) (s : State) : Answer :=
  settle <|
    match operands with
    | [rd, rs, rt] => do
      let d ← s.regOperand rd
      let a ← s.regOperand rs
      let b ← s.regOperand rt
      .ok (s.writeReg d (s.readReg a + s.readReg b))
    | _ => wrongCount (chars ['a', 'd', 'd']) operands

/-- `addi rd, rs, imm` (spec R446). -/
def execAddi (operands : List Text) (s : State) : Answer :=
  settle <|
    match operands with
    | [rd, rs, imm] => do
      let d ← s.regOperand rd
      let a ← s.regOperand rs
      let m ← intOperand imm
      .ok (s.writeReg d (s.readReg a + m))
    | _ => wrongCount (chars ['a', 'd', 'd', 'i']) operands

end Sys2Proof.Machine
end

