-- ==== Sys2Proof/Machine/Flags.lean ====
section
/-! DEFINITION. The block has no flags and no condition codes (spec R140). The one condition it computes is that of `beq`. -/

namespace Sys2Proof.Machine

/-- `x[rs] = x[rt]` (spec R140, R462): the two registers compared directly. -/
def State.regsEqual (s : State) (rs rt : RegIndex) : Bool := s.readReg rs = s.readReg rt

end Sys2Proof.Machine
end

