-- ==== Sys2Proof/Machine/ControlTransfer.lean ====
section
/-! DEFINITION. The control-transfer family, `j` and `beq` (spec R460 to R462): no delay slot (R416). -/

namespace Sys2Proof.Machine

/-- `j label` (spec R461). -/
def execJ (operands : List Text) (s : State) : Answer :=
  settle <|
    match operands with
    | [label] => do
      let a ← s.target label
      .ok (s.setPc a)
    | _ => wrongCount (chars ['j']) operands

/-- `beq rs, rt, label` (spec R462): the label is resolved only when the branch is taken. -/
def execBeq (operands : List Text) (s : State) : Answer :=
  settle <|
    match operands with
    | [rs, rt, label] => do
      let a ← s.regOperand rs
      let b ← s.regOperand rt
      if s.regsEqual a b then do
        let t ← s.target label
        .ok (s.setPc t)
      else .ok s
    | _ => wrongCount (chars ['b', 'e', 'q']) operands

end Sys2Proof.Machine
end

