-- ==== Sys2Proof/Machine/LoadImmediate.lean ====
section
/-! DEFINITION. The load-immediate family, `li` and `la` (spec R420 to R426). The state given is the tentative state of
R410, in which `pc` has been advanced and the counters ticked. -/

namespace Sys2Proof.Machine

/-- `li rd, imm` (spec R421). -/
def execLi (operands : List Text) (s : State) : Answer :=
  settle <|
    match operands with
    | [rd, imm] => do
      let d ← s.regOperand rd
      let v ← immOperand imm
      .ok (s.writeReg d v)
    | _ => wrongCount (chars ['l', 'i']) operands

/-- `la rd, addr-or-label` (spec R426). -/
def execLa (operands : List Text) (s : State) : Answer :=
  settle <|
    match operands with
    | [rd, x] => do
      let d ← s.regOperand rd
      let v ← s.numlabOperand x
      .ok (s.writeReg d v)
    | _ => wrongCount (chars ['l', 'a']) operands

end Sys2Proof.Machine
end

