-- ==== Sys2Proof/Machine/NoOp.lean ====
section
/-! DEFINITION. The timed no-ops (spec R500 to R502): operands are not examined and nothing changes but what STEP changes
for every instruction (R410). -/

namespace Sys2Proof.Machine

/-- A timed no-op, on the tentative state (spec R501, R502). -/
def timedNoOp (s : State) : Answer := settle (.ok s)

/-- `jal` (spec R501): it does not jump and writes no register. -/
def execJal (_operands : List Text) (s : State) : Answer := timedNoOp s

/-- `sub` (spec R501): it computes nothing. -/
def execSub (_operands : List Text) (s : State) : Answer := timedNoOp s

/-- `and` (spec R501): it computes nothing. -/
def execAnd (_operands : List Text) (s : State) : Answer := timedNoOp s

/-- `or` (spec R501): it computes nothing. -/
def execOr (_operands : List Text) (s : State) : Answer := timedNoOp s

/-- Every other mnemonic (spec R502). -/
def execOther (_op : Text) (_operands : List Text) (s : State) : Answer := timedNoOp s

end Sys2Proof.Machine
end

