-- ==== Sys2Proof/Machine/Store.lean ====
section
/-! DEFINITION. The store family, `sw` and `sb` (spec R480 to R486). -/

namespace Sys2Proof.Machine

/-- `sw rt, offset(base)` (spec R481). -/
def execSw (operands : List Text) (s : State) : Answer :=
  settle <|
    match operands with
    | [rt, m] => do
      let t ← s.regOperand rt
      let ref ← s.memrefOperand m
      s.memWrite (s.effectiveAddress ref) .word (s.readReg t)
    | _ => wrongCount (chars ['s', 'w']) operands

/-- `sb rt, offset(base)` (spec R486): the value stored is `u32(x[rt]) mod 256`, an integer in `[0, 255]`. -/
def execSb (operands : List Text) (s : State) : Answer :=
  settle <|
    match operands with
    | [rt, m] => do
      let t ← s.regOperand rt
      let ref ← s.memrefOperand m
      s.memWrite (s.effectiveAddress ref) .byte (u32 (s.readReg t) % 256)
    | _ => wrongCount (chars ['s', 'b']) operands

end Sys2Proof.Machine
end

