-- ==== Sys2Proof/Machine/Dispatch.lean ====
section
/-! DEFINITION. `execute(e, T)` (spec R412): one arm per instruction; `s` is the tentative state T of R410. -/

namespace Sys2Proof.Machine

def exec (i : Instr) (s : State) : Host.Outcome State Fault Refusal :=
  match i with
  | .li ops => Sys2Proof.Machine.execLi ops s
  | .la ops => Sys2Proof.Machine.execLa ops s
  | .add ops => Sys2Proof.Machine.execAdd ops s
  | .addi ops => Sys2Proof.Machine.execAddi ops s
  | .j ops => Sys2Proof.Machine.execJ ops s
  | .beq ops => Sys2Proof.Machine.execBeq ops s
  | .sw ops => Sys2Proof.Machine.execSw ops s
  | .sb ops => Sys2Proof.Machine.execSb ops s
  | .jal ops => Sys2Proof.Machine.execJal ops s
  | .sub ops => Sys2Proof.Machine.execSub ops s
  | .and ops => Sys2Proof.Machine.execAnd ops s
  | .or ops => Sys2Proof.Machine.execOr ops s
  | .other op ops => Sys2Proof.Machine.execOther op ops s

end Sys2Proof.Machine
end

