-- ==== Sys2Proof/Machine/Transaction.lean ====
section
/-! DEFINITION. The transactions of the block's interface: STEP (spec R403, R404, R410 to R416) and LOAD (R401, R402, R209,
R622), and the placing of one instruction where the next step fetches. -/

namespace Sys2Proof.Machine

/-! STEP. -/

/-- What STEP reports (spec R404). `refused` stands for a step before any LOAD (R401). -/
inductive StepReport where
  | stepped (s : State)
  | noStep (s : State)
  | fault (error : Error) (index : Nat) (text : Text) (after : State)
  | refused (reason : Refusal)
  deriving DecidableEq, Repr

/-- The instruction of an entry: `e.op` alone selects the rule (spec R412). -/
def Entry.instr (e : Entry) : Instr := Instr.ofOp e.op e.operands

/-- STEP with the entry it fetched at index `i` (spec R410 steps 2 to 5): the rule runs on the tentative state, and an error
leaves the state before the step with the status Faulted. -/
def executeEntry (s : State) (i : Nat) (e : Entry) : StepReport :=
  match exec e.instr (s.tick e.cls) with
  | .next t => .stepped (t.setLast i)
  | .fault (.raise err) => .fault err i e.text (s.enterFault err i e.text)
  | .fault (.ended err j text after) => .fault err j text after
  | .refused r => .refused r

/-- STEP with nothing to fetch: the run halts (spec R411), unless no program was ever loaded (R401). -/
def stepAtEnd (s : State) : StepReport := if s.prog = [] then .refused .noProgramLoaded else .noStep s.enterHalt

/-- `STEP()` (spec R410, R415). -/
def stepReport (s : State) : StepReport :=
  match s.status with
  | .faulted err i text => .fault err i text s
  | _ =>
    match s.fetch (s.pc / 4) with
    | none => stepAtEnd s
    | some e => executeEntry s (s.pc / 4) e

/-- STEP's report as an outcome: `Stepped` and `NoStep` go on (a halted state steps to itself, R411), `Fault` stops. -/
def StepReport.outcome : StepReport → Answer
  | .stepped s => .next s
  | .noStep s => .next s
  | .fault err i text after => .fault (.ended err i text after)
  | .refused r => .refused r

/-- One step of the machine. -/
def runStep (s : State) : Answer := (stepReport s).outcome

/-! LOAD. -/

/-- The entry LOAD makes of an instruction line (spec R209): none on a line without a token. -/
def entryOf (line : Text) : Option Entry :=
  (decode line).map fun d => { text := line, op := d.op, operands := d.operands, cls := d.cls }

/-- The label name of a label line (spec R203). -/
def labelName (line : Text) : Text := trimRight line.dropLast

/-- The pass of R209 over the lines, from the entries and labels so far. -/
def loadLines (prog : List Entry) (labels : List (Text × Nat)) : List Text → Except Error (List Entry × List (Text × Nat))
  | [] => .ok (prog, labels)
  | line :: lines =>
    if endsWithColon line then
      if labelName line = [] then .error (.malformedProgram .emptyLabel (some line))
      else if (lookupKey (labelName line) labels).isSome then .error (.malformedProgram .duplicateLabel (some line))
      else loadLines prog (labels ++ [(labelName line, prog.length)]) lines
    else
      match entryOf line with
      | none => .error (.malformedProgram .noToken (some line))
      | some e => loadLines (prog ++ [e]) labels lines

/-- The count check (spec R204 a and e, R209), the last one (R622). -/
def checkCount (p : List Entry × List (Text × Nat)) : Except Error (List Entry × List (Text × Nat)) :=
  if p.1.length = 0 then .error (.malformedProgram .noInstruction none)
  else if 2 ^ 30 ≤ p.1.length then .error (.malformedProgram .tooLong none)
  else .ok p

/-- The configuration LOAD receives from the excluded loader (spec R401): a weight the config line does not set is 1. -/
structure LoadConfig where
  freqHz  : Rat
  weightR : Int := 1
  weightI : Int := 1
  weightJ : Int := 1
  deriving DecidableEq, Repr

/-- The configuration check (spec R401), the first one (R622). -/
def checkConfig (c : LoadConfig) : Except Error RunConfig :=
  if c.freqHz ≤ 0 then .error (.invalidConfiguration .frequency)
  else if c.weightR < 0 then .error (.invalidConfiguration .weightR)
  else if c.weightI < 0 then .error (.invalidConfiguration .weightI)
  else if c.weightJ < 0 then .error (.invalidConfiguration .weightJ)
  else .ok { freqHz := c.freqHz, weightR := c.weightR.toNat, weightI := c.weightI.toNat, weightJ := c.weightJ.toNat }

/-- `LOAD(lines, config)` on a block (spec R401, R402, R622): a state, or the error; a failed LOAD yields no state. -/
def load (block : Block) (lines : List Text) (config : LoadConfig) : Except Error State := do
  let run ← checkConfig config
  let p ← loadLines [] [] lines
  let p ← checkCount p
  .ok (State.loaded block run p.1 p.2)

/-! One instruction, placed where the next step fetches (notes/assumptions/4.md). -/

/-- Entry `e` at index `i`, the places before it that do not exist yet filled with `e` too. -/
def placeEntry (prog : List Entry) (i : Nat) (e : Entry) : List Entry :=
  if i < prog.length then prog.set i e else prog ++ List.replicate (i + 1 - prog.length) e

/-- The state in which the next step fetches and runs the instruction of a word: its line's entry at index `pc / 4`, the
status Running. A word that is no line with a token leaves no program, as a LOAD that fails does (spec R204). -/
def placeFetchWord (s : State) (nbits w : Nat) : State :=
  match (textOfWord nbits w).bind entryOf with
  | some e => { s with prog := placeEntry s.prog (s.pc / 4) e, status := .running }
  | none => { s with prog := [], labels := [] }

end Sys2Proof.Machine
end

