-- ==== Sys2Proof/Machine/Step.lean ====
section
/-! DEFINITION. The machine's step (spec R403, R410) and the placing of a word where it fetches. -/

namespace Sys2Proof.Machine

/-- One STEP (spec R403, R404, R410). -/
def step (s : State) : Host.Outcome State Fault Refusal := runStep s

/-- The state whose next step fetches and runs the instruction of a word (notes/assumptions/4.md). -/
def State.withFetchWord (s : State) (nbits w : Nat) : State := placeFetchWord s nbits w

end Sys2Proof.Machine
end

