-- ==== Sys2Proof/Machine/Grammar.lean ====
section
/-! DEFINITION. The operand grammars as the spec writes them (R321, R325), as relations between a token and its value. The
machine does not use them; statements compare the parsers of Machine/Operands.lean with them. -/

namespace Sys2Proof.Machine

/-- The digits in order, lowercase letters (spec R321 `HEX`, `OCT`, `BIN`, `DEC`). -/
def lowerDigits : Text := chars ['0', '1', '2', '3', '4', '5', '6', '7', '8', '9', 'a', 'b', 'c', 'd', 'e', 'f']

/-- The digits in order, uppercase letters. -/
def upperDigits : Text := chars ['0', '1', '2', '3', '4', '5', '6', '7', '8', '9', 'A', 'B', 'C', 'D', 'E', 'F']

/-- `c` is the digit `d` of a base of at most 16. -/
abbrev IsDigit (base : Nat) (c : CodePoint) (d : Nat) : Prop :=
  d < base ∧ (lowerDigits[d]? = some c ∨ upperDigits[d]? = some c)

/-- One or more digits of a base, and the number they spell. -/
inductive Digits (base : Nat) : Text → Nat → Prop where
  | one {c : CodePoint} {d : Nat} : IsDigit base c d → Digits base [c] d
  | more {t : Text} {n : Nat} {c : CodePoint} {d : Nat} :
      Digits base t n → IsDigit base c d → Digits base (t ++ [c]) (n * base + d)

/-- `BODY` of R321. -/
inductive IntBody : Text → Nat → Prop where
  | hex {x : CodePoint} {t : Text} {n : Nat} : x = cp 'x' ∨ x = cp 'X' → Digits 16 t n → IntBody (cp '0' :: x :: t) n
  | oct {x : CodePoint} {t : Text} {n : Nat} : x = cp 'o' ∨ x = cp 'O' → Digits 8 t n → IntBody (cp '0' :: x :: t) n
  | bin {x : CodePoint} {t : Text} {n : Nat} : x = cp 'b' ∨ x = cp 'B' → Digits 2 t n → IntBody (cp '0' :: x :: t) n
  | dec {c : CodePoint} {t : Text} {n : Nat} : c ≠ cp '0' → Digits 10 (c :: t) n → IntBody (c :: t) n
  | zeros {t : Text} : t ≠ [] → (∀ c ∈ t, c = cp '0') → IntBody t 0

/-- `INT` of R321 and its value. -/
inductive IntToken : Text → Int → Prop where
  | unsigned {t : Text} {n : Nat} : IntBody t n → IntToken t n
  | plus {t : Text} {n : Nat} : IntBody t n → IntToken (cp '+' :: t) n
  | minus {t : Text} {n : Nat} : IntBody t n → IntToken (cp '-' :: t) (-(n : Int))

/-- `OFF` of R325 without its sign. -/
inductive OffBody : Text → Nat → Prop where
  | hex {t : Text} {n : Nat} : Digits 16 t n → OffBody (cp '0' :: cp 'x' :: t) n
  | dec {c : CodePoint} {t : Text} {n : Nat} : c ≠ cp '0' → Digits 10 (c :: t) n → OffBody (c :: t) n
  | zeros {t : Text} : t ≠ [] → (∀ c ∈ t, c = cp '0') → OffBody t 0

/-- `OFF` of R325 and its value. -/
inductive OffToken : Text → Int → Prop where
  | plain {t : Text} {n : Nat} : OffBody t n → OffToken t n
  | minus {t : Text} {n : Nat} : OffBody t n → OffToken (cp '-' :: t) (-(n : Int))

/-- `MEMREF` of R325: `OFF "(" BASE ")"`. -/
abbrev MemrefToken (names : Vector Text 32) (t : Text) (off : Int) (base : RegIndex) : Prop :=
  ∃ o, OffToken o off ∧ t = o ++ cp '(' :: (names[base] ++ [cp ')'])

end Sys2Proof.Machine
end

