-- ==== Sys2Proof/Machine/Observe.lean ====
section
/-! DEFINITION. The observations (spec R405, R406, R131, R228, R640): pure functions of the state, and `State.observe`, through
which the caller gets them and which refuses them before a LOAD has succeeded (R401, 92 D30). How they are printed is out of
scope (R7). -/

namespace Sys2Proof.Machine

/-- The elapsed time in seconds, `weighted / FREQ_HZ`, exact (spec R640). -/
def State.elapsed (s : State) : Rat := (s.weighted : Rat) / s.config.freqHz

/-- The class and the raw text of the instruction at index `last` (spec R405). -/
def State.lastInstruction (s : State) : Option (Cls × Text) :=
  (s.last.bind s.fetch).map fun e => (e.cls, e.text)

/-- `snapshot(max_entries)` (spec R131): index, name and value of the registers written last, the most recent first. -/
def State.snapshot (s : State) (maxEntries : Int) : List (RegIndex × Text × Int) :=
  (s.recency.reverse.take maxEntries.toNat).map fun r => (r, s.block.regNames[r], s.regs[r].toInt)

/-- A row of the program snapshot (spec R405, R406): address, text, mnemonic, and the two marks. -/
structure ProgramRow where
  addr   : Nat
  text   : Text
  op     : Text
  isLast : Bool
  isNext : Bool
  deriving DecidableEq, Repr

/-- The program snapshot (spec R405, R406): one row per instruction index, ascending; the marks are at `last` and `pc / 4`. -/
def State.programSnapshot (s : State) : List ProgramRow :=
  s.prog.zipIdx.map fun (e, i) =>
    { addr := 4 * i, text := e.text, op := e.op, isLast := s.last = some i, isNext := s.pc / 4 = i }

/-- A row of the data snapshot (spec R228). `number` is a row of an `Int` tag: the size is the row's tag (Byte, Halfword,
Word), `raw` the bytes as an unsigned number (the representation's digits), `value` what a read gives. `quoted` is a row of
a `Text` tag that is no string byte. -/
inductive DataRow where
  | string (addr : Nat) (chars : Text)
  | number (addr : Nat) (size : Size) (raw : Nat) (value : Int)
  | quoted (addr : Nat) (size : Size) (text : Text)
  deriving DecidableEq, Repr

/-- A string byte (spec R228): tagged `Text(1, _)`, its current value printable and non-null. -/
def Memory.isStringByte (m : Memory) (a : Nat) : Bool :=
  match m.tag a with
  | some (.text .byte _) => decide (0x20 ≤ (m.byte a).toNat ∧ (m.byte a).toNat ≤ 0x7E)
  | _ => false

/-- The row of an address that is no string byte (spec R228), for the size of its tag. -/
def Memory.plainRow (m : Memory) (a : Nat) (n : Size) : DataRow :=
  match m.value a n with
  | .int v => .number a n (m.bytesValue a n.bytes) v
  | .text t => .quoted a n t

/-- Puts a string byte before the rows after it, joining the run that starts at the next address (spec R228). -/
def joinString (a : Nat) (c : CodePoint) (rows : List DataRow) : List DataRow :=
  match rows with
  | .string b chars :: more => if b = a + 1 then .string a (c :: chars) :: more else .string a [c] :: rows
  | _ => .string a [c] :: rows

/-- The rows of some tagged addresses, in their order (spec R228). -/
def Memory.rows (m : Memory) : List (Nat × Tag) → List DataRow
  | [] => []
  | (a, t) :: rest =>
    if m.isStringByte a then joinString a (Fin.ofNat 0x110000 (m.byte a).toNat) (m.rows rest)
    else m.plainRow a t.size :: m.rows rest

/-- The data snapshot (spec R228). -/
def State.dataSnapshot (s : State) : List DataRow := s.mem.rows s.mem.tags

/-! The interface. -/

/-- What the caller may observe (spec R405). A register is asked for by the index its name stands for (R102). -/
inductive Query where
  | status
  | pc
  | cycles
  | elapsed
  | lastInstruction
  | register (r : RegIndex)
  | snapshot (maxEntries : Int)
  | programSnapshot
  | dataSnapshot
  deriving DecidableEq, Repr

/-- What an observation gives (spec R405). -/
inductive Report where
  | status (v : Status)
  | pc (v : Nat)
  | cycles (v : Nat)
  | elapsed (v : Rat)
  | lastInstruction (v : Option (Cls × Text))
  | register (v : Int)
  | snapshot (rows : List (RegIndex × Text × Int))
  | programSnapshot (rows : List ProgramRow)
  | dataSnapshot (rows : List DataRow)
  deriving DecidableEq, Repr

/-- The observation's value, a pure function of the state (spec R405). -/
def State.report (s : State) : Query → Report
  | .status => .status s.status
  | .pc => .pc s.pc
  | .cycles => .cycles s.cycles
  | .elapsed => .elapsed s.elapsed
  | .lastInstruction => .lastInstruction s.lastInstruction
  | .register r => .register (s.readReg r)
  | .snapshot k => .snapshot (s.snapshot k)
  | .programSnapshot => .programSnapshot s.programSnapshot
  | .dataSnapshot => .dataSnapshot s.dataSnapshot

/-- An observation (spec R405): refused, as STEP is, before a LOAD has succeeded (R401, 92 D30), which an empty program store
shows (R204; notes/assumptions/2.md). -/
def State.observe (s : State) (q : Query) : Except Refusal Report :=
  if s.prog = [] then .error .noProgramLoaded else .ok (s.report q)

end Sys2Proof.Machine
end

