-- ==== Sys2Proof/Safety.lean ====
section
/-! DEFINITION. The terms statements are made in: what a register write and a store do to a state, frames, and the invariant
the spec says every reachable state satisfies. -/

namespace Sys2Proof.Machine

/-! Effects. -/

/-- `t` is `s` after `x[d] <- v` (spec R111): register `d` reads the wrapped value (0 for the zero register), every other
register reads as before, the recency list is touched unless `d` is the zero register, nothing else changes, and a write of
the zero register changes nothing at all. -/
structure RegWritten (s t : State) (d : RegIndex) (v : Int) : Prop where
  value   : t.readReg d = if d = 0 then 0 else wrap32 v
  others  : ∀ r, r ≠ d → t.readReg r = s.readReg r
  recency : t.recency = if d = 0 then s.recency else touch d s.recency
  rest    : t = { s with regs := t.regs, recency := t.recency }
  zero    : d = 0 → t = s

/-- `t` is `s` after the integer write of `v` with size `n` at address `a` (spec R222, R226, R230): byte `k` holds bits
`8k+7 .. 8k` of `v mod 2^(8n)`, the tag at `a` is `Int(n)`, every other byte and tag is as before, nothing else changes. -/
structure MemWritten (s t : State) (a : Nat) (n : Size) (v : Int) : Prop where
  bytes     : ∀ k, k < n.bytes → ((t.mem.byte (a + k)).toNat : Int) = v % 2 ^ (8 * n.bytes) / 2 ^ (8 * k) % 256
  outside   : ∀ b, b < a ∨ a + n.bytes ≤ b → t.mem.byte b = s.mem.byte b
  tag       : t.mem.tag a = some (.int n)
  otherTags : ∀ b, b ≠ a → t.mem.tag b = s.mem.tag b
  rest      : t = { s with mem := t.mem }

/-- Text written one code point at a time, each a textual write of one byte (spec R223, 95 W4). -/
def writeChars (s : State) (a : Nat) : Text → Except Error State
  | [] => .ok s
  | c :: cs => do
    let t ← s.memWriteText a .byte [c]
    writeChars t (a + 1) cs

/-! The invariant. -/

/-- The zero register's place holds 0 (spec R104), no register index is listed twice in the recency list, register 0 is not
in it, and it holds at most 32 (spec R100, R130). -/
structure State.RegsOk (s : State) : Prop where
  zero    : s.regs[0] = 0#32
  nodup   : s.recency.Nodup
  noZero  : (0 : RegIndex) ∉ s.recency
  bounded : s.recency.length ≤ 32

/-- The data store is in the model's canonical form (DESIGN CHOICE, notes/assumptions/5.md), and every byte listed and every
tagged range lies below `MEM_SIZE` (spec R221). -/
structure State.MemOk (s : State) : Prop where
  wf    : s.mem.wf
  cells : ∀ c ∈ s.mem.cells, c.1 < s.block.memSize
  tags  : ∀ t ∈ s.mem.tags, t.1 + t.2.size.bytes ≤ s.block.memSize

/-- Every entry is the decoding of its text, and the program is shorter than `2^30` (spec R209, R123); every label is bound
to an index in `0..L` (spec R205), under one name once (R204). -/
structure State.ProgOk (s : State) : Prop where
  entries : ∀ e ∈ s.prog, entryOf e.text = some e
  short   : s.prog.length < 2 ^ 30
  targets : ∀ l ∈ s.labels, l.2 ≤ s.prog.length
  names   : (s.labels.map Prod.fst).Nodup

/-- `pc` is a multiple of 4 (spec R122) and at most `4*L` (R123); Halted means `pc` is at the end (R411); `last` is the index
of an entry (R161). -/
structure State.PcOk (s : State) : Prop where
  aligned : s.pc % 4 = 0
  inRange : s.pc ≤ 4 * s.prog.length
  atEnd   : s.status = .halted → s.pc = 4 * s.prog.length
  last    : ∀ i, s.last = some i → i < s.prog.length

/-- The names of the registers are distinct (spec R101 "injective"). -/
abbrev NamesDistinct (names : Vector Text 32) : Prop := ∀ a b : RegIndex, names[a] = names[b] → a = b

/-- The parameters meet their constraints (spec R12, R101). -/
structure State.ParamsOk (s : State) : Prop where
  memSize : 0 < s.block.memSize
  freqHz  : 0 < s.config.freqHz
  names   : NamesDistinct s.block.regNames

/-- The invariant of the machine. -/
structure State.Inv (s : State) : Prop where
  regs   : s.RegsOk
  mem    : s.MemOk
  prog   : s.ProgOk
  pc     : s.PcOk
  params : s.ParamsOk

/-! Runs. -/

/-- The status is not Faulted: STEP fetches (spec R410). -/
def State.notFaulted (s : State) : Bool :=
  match s.status with
  | .faulted _ _ _ => false
  | _ => true

/-- The instruction of an entry transfers control in this state: `j`, or a `beq` whose registers are equal (spec R460). -/
def State.transfers (s : State) (e : Entry) : Bool :=
  match e.instr with
  | .j _ => true
  | .beq [rs, rt, _] =>
    match parseReg s.block.regNames rs, parseReg s.block.regNames rt with
    | some a, some b => s.regsEqual a b
    | _, _ => false
  | _ => false

end Sys2Proof.Machine
end

