-- ==== Sys2Proof/Certificates/Slice0/Obligations.lean ====
section
/-! DEFINITION. The statements for the provers, from the numbered rules of spec/. -/

open Sys2Proof Sys2Proof.Machine

/-! ## Registers -/

/-- R112: after `x[r] <- v` the read `x[r]` returns `wrap32(v)`, and the zero register reads 0. -/
def Obligations.ReadAfterRegisterWrite : Prop :=
  ∀ (s : State) (r : RegIndex) (v : Int),
    (r ≠ 0 → (s.writeReg r v).readReg r = wrap32 v) ∧ (s.writeReg 0 v).readReg 0 = 0

/-- R104: a write of the zero register changes nothing, and it always reads 0. -/
def Obligations.ZeroRegisterIsHardwired : Prop :=
  ∀ (s : State) (v : Int), s.writeReg 0 v = s ∧ s.readReg 0 = 0

/-- R111: the whole effect of a register write. The recency list of a state that meets the register invariant gets the index
moved to its end (the cap of R130 does not bind). -/
def Obligations.RegisterWriteEffect : Prop :=
  ∀ (s : State) (r : RegIndex) (v : Int),
    (r = 0 → s.writeReg r v = s) ∧
    (r ≠ 0 → s.RegsOk →
      (s.writeReg r v).regs[r] = BitVec.ofInt 32 v ∧ (s.writeReg r v).readReg r = wrap32 v ∧
      (∀ q : RegIndex, q ≠ r → (s.writeReg r v).regs[q] = s.regs[q]) ∧
      (s.writeReg r v).recency = s.recency.filter (· ≠ r) ++ [r] ∧
      s.writeReg r v = { s with regs := (s.writeReg r v).regs, recency := (s.writeReg r v).recency })

/-- R130: the recency list holds distinct indices of 1..31, so at most 31, and a write keeps it so. -/
def Obligations.RecencyListStaysBounded : Prop :=
  ∀ (s : State) (r : RegIndex) (v : Int), s.RegsOk →
    (s.writeReg r v).RegsOk ∧ (s.writeReg r v).recency.length ≤ 31 ∧
    (r ≠ 0 → (s.writeReg r v).recency.getLast? = some r) ∧
    (∀ q, q ∈ (s.writeReg r v).recency ↔ q ∈ s.recency ∨ (q = r ∧ r ≠ 0))

/-- R131: the register snapshot lists the last `min(max_entries, len(recency))` entries, the most recently written first. -/
def Obligations.RegisterSnapshotRows : Prop :=
  ∀ (s : State) (k : Int),
    (s.snapshot k).length = min k.toNat s.recency.length ∧
    ∀ j, j < min k.toNat s.recency.length → ∃ r : RegIndex,
      s.recency[s.recency.length - 1 - j]? = some r ∧
      (s.snapshot k)[j]? = some (r, s.block.regNames[r], s.regs[r].toInt)

/-! ## Operands -/

/-- R320: a token names the register whose name it equals; any other token is `InvalidOperandFormat`. -/
def Obligations.RegisterOperandLookup : Prop :=
  ∀ (s : State) (tok : Text), NamesDistinct s.block.regNames →
    (∀ i : RegIndex, s.regOperand tok = .ok i ↔ s.block.regNames[i] = tok) ∧
    ((∀ i : RegIndex, s.block.regNames[i] ≠ tok) → s.regOperand tok = .error (.invalidOperand tok))

/-- R101: the default table has distinct names, `$zero` at index 0. -/
def Obligations.DefaultRegisterNames : Prop :=
  NamesDistinct Config.regNames ∧ Config.regNames[0] = chars ['$', 'z', 'e', 'r', 'o'] ∧
  Config.regNames[8] = chars ['$', 't', '0'] ∧ Config.regNames[29] = chars ['$', 's', 'p'] ∧ Config.regNames[31] = chars ['$', 'r', 'a']

/-- R321: `parse_int` accepts exactly the tokens of the grammar `INT` and returns the integer they spell. -/
def Obligations.IntegerLiteralGrammar : Prop :=
  ∀ tok : Text,
    (∀ v : Int, intOperand tok = .ok v ↔ IntToken tok v) ∧
    ((∀ v : Int, ¬ IntToken tok v) → intOperand tok = .error (.invalidOperand tok))

/-- R323: a character literal is its code point, any other token is read by `parse_int`. -/
def Obligations.ImmediateOperand : Prop :=
  (∀ c : CodePoint, immOperand [cp '\'', c, cp '\''] = .ok (c.val : Int)) ∧
  (∀ tok : Text, (∀ c : CodePoint, tok ≠ [cp '\'', c, cp '\'']) → immOperand tok = intOperand tok)

/-- R324: a number of the grammar `INT` is its value; any other token is a label, resolved to its program address. -/
def Obligations.NumberOrLabelOperand : Prop :=
  ∀ (s : State) (tok : Text),
    (∀ v : Int, IntToken tok v → s.numlabOperand tok = .ok v) ∧
    ((∀ v : Int, ¬ IntToken tok v) →
      (∀ k : Nat, s.resolve tok = .ok k → s.numlabOperand tok = .ok (4 * (k : Int))) ∧
      (lookupKey tok s.labels = none → s.numlabOperand tok = .error (.undefinedLabel tok)))

/-- R325: `parse_memref` accepts exactly the tokens `OFF "(" BASE ")"` and returns offset and base. -/
def Obligations.MemoryOperandGrammar : Prop :=
  ∀ (s : State) (tok : Text), NamesDistinct s.block.regNames →
    (∀ (off : Int) (base : RegIndex),
      s.memrefOperand tok = .ok (off, base) ↔ MemrefToken s.block.regNames tok off base) ∧
    ((∀ (off : Int) (base : RegIndex), ¬ MemrefToken s.block.regNames tok off base) →
      s.memrefOperand tok = .error (.invalidOperand tok))

/-- R321, R325: every integer can be written as an operand, in decimal and in hexadecimal, and every offset with every base as
a memory operand, and each is read back; how the model writes them is its own (notes/assumptions/14.md). -/
def Obligations.EveryNumberIsWritten : Prop :=
  ∀ (s : State) (v : Int),
    isToken (decimalText v) = true ∧ isToken (hexText v) = true ∧
    intOperand (decimalText v) = .ok v ∧ intOperand (hexText v) = .ok v ∧
    (NamesDistinct s.block.regNames → ∀ base : RegIndex,
      s.memrefOperand (memrefText s.block.regNames v base) = .ok (v, base) ∧
      s.memrefOperand (hexText v ++ cp '(' :: (s.block.regNames[base] ++ [cp ')'])) = .ok (v, base))

/-- R206: a name of the label table is its index, any other raises `UndefinedLabel`. -/
def Obligations.LabelResolution : Prop :=
  ∀ (s : State) (name : Text), (s.labels.map Prod.fst).Nodup →
    (∀ k : Nat, s.resolve name = .ok k ↔ (name, k) ∈ s.labels) ∧
    (name ∉ s.labels.map Prod.fst → s.resolve name = .error (.undefinedLabel name))

/-! ## Decoding -/

/-- R302: what the tokens of a line are. Nothing has none; a run without whitespace or comma is one; whitespace and a comma
separate. -/
def Obligations.Tokenisation : Prop :=
  (∀ c : CodePoint, isWs c = true ↔ c.val ∈ [0x20, 0x09, 0x0A, 0x0B, 0x0C, 0x0D]) ∧
  tokenize [] = [] ∧
  (∀ t : Text, t ≠ [] → (∀ c ∈ t, isWs c = false ∧ c ≠ cp ',') → tokenize t = [t]) ∧
  (∀ (a b : Text) (c : CodePoint), isWs c = true ∨ c = cp ',' → tokenize (a ++ c :: b) = tokenize a ++ tokenize b)

/-- R303: the mnemonic is the first token with its ASCII capitals lowercased and every other code point kept, the operands
are the other tokens as they stand; the class is that of the mnemonic (R300). -/
def Obligations.DecodeRecord : Prop :=
  (∀ line : Text, tokenize line = [] → decode line = none) ∧
  (∀ (line tok : Text) (ops : List Text), tokenize line = tok :: ops →
    ∃ d, decode line = some d ∧ d.operands = ops ∧ d.cls = classOf d.op ∧ d.op.length = tok.length ∧
      ∀ (k : Nat) (c : CodePoint), tok[k]? = some c →
        ∃ c' : CodePoint, d.op[k]? = some c' ∧ c'.val = (if 0x41 ≤ c.val ∧ c.val ≤ 0x5A then c.val + 0x20 else c.val))

/-- R304: the class of every mnemonic. -/
def Obligations.ClassAssignment : Prop :=
  ∀ op : Text,
    (classOf op = .j ↔ op ∈ [text "j", text "jal"]) ∧
    (classOf op = .r ↔ op ∈ [text "add", text "sub", text "and", text "or"]) ∧
    (classOf op = .i ↔ op ∉ [text "j", text "jal", text "add", text "sub", text "and", text "or"])

/-- Decode and encode agree: every well-formed instruction, with any operand tokens, is read back from its line, and that
line is an instruction line, no label line (R202). -/
def Obligations.DecodeEncodeRoundTrip : Prop :=
  ∀ i : Instr, i.wf = true → decodeLine (encode i) = some i ∧ endsWithColon (encode i) = false

/-- Decoding never fails on a line with a token and gives a well-formed instruction (R300, R331). -/
def Obligations.DecodeIsTotalAndWellFormed : Prop :=
  ∀ line : Text,
    (tokenize line ≠ [] → ∃ i, decodeLine line = some i) ∧
    (∀ i, decodeLine line = some i → i.wf = true)

/-- The model's own numbering of an instruction's text as a word (notes/assumptions/4.md; the spec has no binary form, R301):
the word of an instruction's line is read back as that instruction, where the line does not end in a NUL. -/
def Obligations.WordOfLineRoundTrip : Prop :=
  ∀ i : Instr, i.wf = true → (encode i).getLast? ≠ some 0 →
    decodeTableWord (8 * (textBytes (encode i)).length) (wordOfBytes (textBytes (encode i))) = some i

/-- Lines the spec decodes (95 V1): each stands for its instruction. -/
def Obligations.SpecLinesDecode : Prop :=
  decodeLine (text "ADD $t2 , $t0 ,$t1") = some (.add [text "$t2", text "$t0", text "$t1"]) ∧
  decodeLine (text "Li $t0, 10") = some (.li [text "$t0", text "10"]) ∧
  decodeLine (text "sw $t0, -4($sp)") = some (.sw [text "$t0", text "-4($sp)"]) ∧
  decodeLine (text "beq $t0,$t1,loop") = some (.beq [text "$t0", text "$t1", text "loop"]) ∧
  decodeLine (text "j end") = some (.j [text "end"]) ∧
  decodeLine (text "JAL f") = some (.jal [text "f"]) ∧
  decodeLine (text "li $t0, ','") = some (.li [text "$t0", text "'", text "'"]) ∧
  decodeLine (text "loop: add $t0,$t0,$t1") =
    some (.other (text "loop:") [text "add", text "$t0", text "$t0", text "$t1"])

/-! ## Instructions: each one's whole rule, on the tentative state of R410. -/

/-- R421 `li rd, imm`. -/
def Obligations.LiRule : Prop :=
  ∀ (s : State) (ops : List Text),
    ((Instr.li ops).op = text "li" ∧ (Instr.li ops).cls = .i) ∧
    (ops.length ≠ 2 → exec (.li ops) s = .fault (.raise (.operandCount (text "li") ops))) ∧
    (∀ rd imm, ops = [rd, imm] →
      (parseReg s.block.regNames rd = none → exec (.li ops) s = .fault (.raise (.invalidOperand rd))) ∧
      (∀ d, parseReg s.block.regNames rd = some d →
        (parseImm imm = none → exec (.li ops) s = .fault (.raise (.invalidOperand imm))) ∧
        (∀ v, parseImm imm = some v → ∃ t, exec (.li ops) s = .next t ∧ RegWritten s t d v)))

/-- R426 `la rd, addr-or-label`. -/
def Obligations.LaRule : Prop :=
  ∀ (s : State) (ops : List Text),
    ((Instr.la ops).op = text "la" ∧ (Instr.la ops).cls = .i) ∧
    (ops.length ≠ 2 → exec (.la ops) s = .fault (.raise (.operandCount (text "la") ops))) ∧
    (∀ rd x, ops = [rd, x] →
      (parseReg s.block.regNames rd = none → exec (.la ops) s = .fault (.raise (.invalidOperand rd))) ∧
      (∀ d, parseReg s.block.regNames rd = some d →
        (∀ v, parseInt x = some v → ∃ t, exec (.la ops) s = .next t ∧ RegWritten s t d v) ∧
        (parseInt x = none →
          (lookupKey x s.labels = none → exec (.la ops) s = .fault (.raise (.undefinedLabel x))) ∧
          (∀ k : Nat, lookupKey x s.labels = some k → ∃ t, exec (.la ops) s = .next t ∧ RegWritten s t d (4 * k)))))

/-- R441 `add rd, rs, rt`: the sources are read before the destination is written. -/
def Obligations.AddRule : Prop :=
  ∀ (s : State) (ops : List Text),
    ((Instr.add ops).op = text "add" ∧ (Instr.add ops).cls = .r) ∧
    (ops.length ≠ 3 → exec (.add ops) s = .fault (.raise (.operandCount (text "add") ops))) ∧
    (∀ rd rs rt, ops = [rd, rs, rt] →
      (parseReg s.block.regNames rd = none → exec (.add ops) s = .fault (.raise (.invalidOperand rd))) ∧
      (∀ d, parseReg s.block.regNames rd = some d →
        (parseReg s.block.regNames rs = none → exec (.add ops) s = .fault (.raise (.invalidOperand rs))) ∧
        (∀ a, parseReg s.block.regNames rs = some a →
          (parseReg s.block.regNames rt = none → exec (.add ops) s = .fault (.raise (.invalidOperand rt))) ∧
          (∀ b, parseReg s.block.regNames rt = some b →
            ∃ t, exec (.add ops) s = .next t ∧ RegWritten s t d (s.readReg a + s.readReg b)))))

/-- R446 `addi rd, rs, imm`. -/
def Obligations.AddiRule : Prop :=
  ∀ (s : State) (ops : List Text),
    ((Instr.addi ops).op = text "addi" ∧ (Instr.addi ops).cls = .i) ∧
    (ops.length ≠ 3 → exec (.addi ops) s = .fault (.raise (.operandCount (text "addi") ops))) ∧
    (∀ rd rs imm, ops = [rd, rs, imm] →
      (parseReg s.block.regNames rd = none → exec (.addi ops) s = .fault (.raise (.invalidOperand rd))) ∧
      (∀ d, parseReg s.block.regNames rd = some d →
        (parseReg s.block.regNames rs = none → exec (.addi ops) s = .fault (.raise (.invalidOperand rs))) ∧
        (∀ a, parseReg s.block.regNames rs = some a →
          (parseInt imm = none → exec (.addi ops) s = .fault (.raise (.invalidOperand imm))) ∧
          (∀ m, parseInt imm = some m →
            ∃ t, exec (.addi ops) s = .next t ∧ RegWritten s t d (s.readReg a + m)))))

/-- R461 `j label`. -/
def Obligations.JRule : Prop :=
  ∀ (s : State) (ops : List Text),
    ((Instr.j ops).op = text "j" ∧ (Instr.j ops).cls = .j) ∧
    (ops.length ≠ 1 → exec (.j ops) s = .fault (.raise (.operandCount (text "j") ops))) ∧
    (∀ label, ops = [label] →
      (lookupKey label s.labels = none → exec (.j ops) s = .fault (.raise (.undefinedLabel label))) ∧
      (∀ k, lookupKey label s.labels = some k → exec (.j ops) s = .next { s with pc := 4 * k }))

/-- R462 `beq rs, rt, label`: the label is resolved only when the branch is taken. -/
def Obligations.BeqRule : Prop :=
  ∀ (s : State) (ops : List Text),
    ((Instr.beq ops).op = text "beq" ∧ (Instr.beq ops).cls = .i) ∧
    (ops.length ≠ 3 → exec (.beq ops) s = .fault (.raise (.operandCount (text "beq") ops))) ∧
    (∀ rs rt label, ops = [rs, rt, label] →
      (parseReg s.block.regNames rs = none → exec (.beq ops) s = .fault (.raise (.invalidOperand rs))) ∧
      (∀ a, parseReg s.block.regNames rs = some a →
        (parseReg s.block.regNames rt = none → exec (.beq ops) s = .fault (.raise (.invalidOperand rt))) ∧
        (∀ b, parseReg s.block.regNames rt = some b →
          (s.readReg a ≠ s.readReg b → exec (.beq ops) s = .next s) ∧
          (s.readReg a = s.readReg b →
            (lookupKey label s.labels = none → exec (.beq ops) s = .fault (.raise (.undefinedLabel label))) ∧
            (∀ k, lookupKey label s.labels = some k → exec (.beq ops) s = .next { s with pc := 4 * k })))))

/-- R481 `sw rt, offset(base)`: under either value of `INT_STORE_OVERFLOW`. -/
def Obligations.SwRule : Prop :=
  ∀ (s : State) (ops : List Text),
    ((Instr.sw ops).op = text "sw" ∧ (Instr.sw ops).cls = .i) ∧
    (ops.length ≠ 2 → exec (.sw ops) s = .fault (.raise (.operandCount (text "sw") ops))) ∧
    (∀ rt m, ops = [rt, m] →
      (parseReg s.block.regNames rt = none → exec (.sw ops) s = .fault (.raise (.invalidOperand rt))) ∧
      (∀ r, parseReg s.block.regNames rt = some r →
        (parseMemref s.block.regNames m = none → exec (.sw ops) s = .fault (.raise (.invalidOperand m))) ∧
        (∀ off base ea, parseMemref s.block.regNames m = some (off, base) → ea = s.readReg base + off →
          (ea < 0 ∨ (s.block.memSize : Int) < ea + 4 → exec (.sw ops) s = .fault (.raise (.outOfBounds ea .word))) ∧
          (0 ≤ ea ∧ ea + 4 ≤ s.block.memSize →
            ∃ t, exec (.sw ops) s = .next t ∧ MemWritten s t ea.toNat .word (s.readReg r)))))

/-- R486 `sb rt, offset(base)`: the value stored is `u32(x[rt]) mod 256`. -/
def Obligations.SbRule : Prop :=
  ∀ (s : State) (ops : List Text),
    ((Instr.sb ops).op = text "sb" ∧ (Instr.sb ops).cls = .i) ∧
    (ops.length ≠ 2 → exec (.sb ops) s = .fault (.raise (.operandCount (text "sb") ops))) ∧
    (∀ rt m, ops = [rt, m] →
      (parseReg s.block.regNames rt = none → exec (.sb ops) s = .fault (.raise (.invalidOperand rt))) ∧
      (∀ r, parseReg s.block.regNames rt = some r →
        (parseMemref s.block.regNames m = none → exec (.sb ops) s = .fault (.raise (.invalidOperand m))) ∧
        (∀ off base ea v, parseMemref s.block.regNames m = some (off, base) → ea = s.readReg base + off →
          v = s.readReg r % 2 ^ 32 % 256 →
          (ea < 0 ∨ (s.block.memSize : Int) ≤ ea → exec (.sb ops) s = .fault (.raise (.outOfBounds ea .byte))) ∧
          (0 ≤ ea ∧ ea < s.block.memSize →
            (128 ≤ v ∧ s.block.overflow = .fault → exec (.sb ops) s = .fault (.raise (.sizeMismatch ea .byte v))) ∧
            (v < 128 ∨ s.block.overflow = .truncate →
              ∃ t, exec (.sb ops) s = .next t ∧ MemWritten s t ea.toNat .byte v)))))

/-- R501: `jal`, `sub`, `and`, `or` go on with nothing changed, whatever the operands, and have these classes. -/
def Obligations.ClassifiedNoOpsRule : Prop :=
  ∀ (s : State) (ops : List Text),
    (exec (.jal ops) s = .next s ∧ (Instr.jal ops).cls = .j) ∧
    (exec (.sub ops) s = .next s ∧ (Instr.sub ops).cls = .r) ∧
    (exec (.and ops) s = .next s ∧ (Instr.and ops).cls = .r) ∧
    (exec (.or ops) s = .next s ∧ (Instr.or ops).cls = .r)

/-- R502: a line whose lowercased first token is none of the twelve mnemonics decodes to `other`, class I, which goes on
with nothing changed, whatever the operands. -/
def Obligations.UnknownMnemonicRule : Prop :=
  ∀ (s : State) (line tok : Text) (ops : List Text), tokenize line = tok :: ops → asciiLower tok ∉ namedOps →
    decodeLine line = some (.other (asciiLower tok) ops) ∧ classOf (asciiLower tok) = .i ∧
    exec (.other (asciiLower tok) ops) s = .next s

/-! ## Frames -/

/-- `li`, `la`, `add`, `addi` (R105, R106, R420): nothing changes but the destination register, the first operand, and the
recency list. -/
def Obligations.RegisterInstructionFrame : Prop :=
  ∀ (s t : State) (ops : List Text) (i : Instr),
    i = .li ops ∨ i = .la ops ∨ i = .add ops ∨ i = .addi ops → exec i s = .next t →
    ∃ rd rest d, ops = rd :: rest ∧ parseReg s.block.regNames rd = some d ∧
      (∀ r, r ≠ d → t.readReg r = s.readReg r) ∧ t.recency = (if d = 0 then s.recency else touch d s.recency) ∧
      (t.pc = s.pc ∧ t.status = s.status ∧ t.cycles = s.cycles ∧ t.weighted = s.weighted ∧ t.last = s.last) ∧
      (∀ a, t.mem.byte a = s.mem.byte a) ∧ (∀ a, t.mem.tag a = s.mem.tag a) ∧
      (t.prog = s.prog ∧ t.labels = s.labels ∧ t.block = s.block ∧ t.config = s.config)

/-- `j`, `beq` (R460 to R462): nothing changes but `pc`. -/
def Obligations.ControlTransferFrame : Prop :=
  ∀ (s t : State) (ops : List Text) (i : Instr), i = .j ops ∨ i = .beq ops → exec i s = .next t →
    (∀ r, t.readReg r = s.readReg r) ∧ t.recency = s.recency ∧
    (t.status = s.status ∧ t.cycles = s.cycles ∧ t.weighted = s.weighted ∧ t.last = s.last) ∧
    (∀ a, t.mem.byte a = s.mem.byte a) ∧ (∀ a, t.mem.tag a = s.mem.tag a) ∧
    (t.prog = s.prog ∧ t.labels = s.labels ∧ t.block = s.block ∧ t.config = s.config)

/-- `sw`, `sb` (R480 to R486): no register changes, and every byte outside the 4 or 1 at the effective address and every tag
but the one at it is as before. -/
def Obligations.StoreFrame : Prop :=
  ∀ (s t : State) (ops : List Text) (i : Instr) (n : Size),
    (i = .sw ops ∧ n = .word) ∨ (i = .sb ops ∧ n = .byte) → exec i s = .next t →
    ∃ rt m ref, ops = [rt, m] ∧ parseMemref s.block.regNames m = some ref ∧
      InBounds s.block.memSize (s.effectiveAddress ref) n ∧
      (∀ r, t.readReg r = s.readReg r) ∧ t.recency = s.recency ∧
      (t.pc = s.pc ∧ t.status = s.status ∧ t.cycles = s.cycles ∧ t.weighted = s.weighted ∧ t.last = s.last) ∧
      (∀ b : Nat, (b : Int) < s.effectiveAddress ref ∨ s.effectiveAddress ref + n.bytes ≤ b →
        t.mem.byte b = s.mem.byte b) ∧
      (∀ b : Nat, (b : Int) ≠ s.effectiveAddress ref → t.mem.tag b = s.mem.tag b) ∧
      (t.prog = s.prog ∧ t.labels = s.labels ∧ t.block = s.block ∧ t.config = s.config)

/-! ## Errors -/

/-- R601's "raised by": which instructions raise which kind. `SizeMismatch` needs `INT_STORE_OVERFLOW = Fault` (R225), and
the kinds of LOAD are raised by none. -/
def Obligations.WhichInstructionRaisesWhat : Prop :=
  ∀ (i : Instr) (s : State) (e : Error), exec i s = .fault (.raise e) →
    (e.kind = .undefinedLabel ∧ i.op ∈ [text "la", text "j", text "beq"]) ∨
    (e.kind = .invalidOperandFormat ∧
      i.op ∈ [text "li", text "la", text "add", text "addi", text "j", text "beq", text "sw", text "sb"]) ∨
    (e.kind = .sizeMismatch ∧ i.op = text "sb" ∧ s.block.overflow = .fault) ∨
    (e.kind = .outOfBounds ∧ i.op ∈ [text "sw", text "sb"])

/-! ## The step -/

/-- A step runs the decoded instruction (R410, R412): where the fetched entry is the decoding of its text and that text
decodes to `i`, the step is `exec i` on the tentative state, with `last` set, or the fault with index and text added. -/
def Obligations.StepRunsDecodedInstruction : Prop :=
  ∀ (s : State) (e : Entry) (i : Instr), s.notFaulted = true → s.fetch (s.pc / 4) = some e → entryOf e.text = some e →
    decodeLine e.text = some i →
    (∀ t, exec i (s.tick i.cls) = .next t → step s = .next (t.setLast (s.pc / 4))) ∧
    (∀ err, exec i (s.tick i.cls) = .fault (.raise err) →
      step s = .fault (.ended err (s.pc / 4) e.text (s.enterFault err (s.pc / 4) e.text)))

/-- The model's own placing of a word (notes/assumptions/4.md): after it the very next step runs the word's instruction, and
nothing but the program store and the status has changed. -/
def Obligations.PlacedWordRunsNext : Prop :=
  ∀ (s : State) (n w : Nat) (i : Instr), decodeTableWord n w = some i →
    (∀ t, exec i ((s.withFetchWord n w).tick i.cls) = .next t →
      step (s.withFetchWord n w) = .next (t.setLast (s.pc / 4))) ∧
    (∀ err, exec i ((s.withFetchWord n w).tick i.cls) = .fault (.raise err) → ∃ x,
      step (s.withFetchWord n w) =
        .fault (.ended err (s.pc / 4) x ((s.withFetchWord n w).enterFault err (s.pc / 4) x))) ∧
    s.withFetchWord n w = { s with prog := (s.withFetchWord n w).prog, status := .running }

/-- R411: with nothing to fetch, STEP sets the status Halted, changes nothing else, takes no step, and does so again. -/
def Obligations.HaltsAtEndOfProgram : Prop :=
  ∀ s : State, s.prog ≠ [] → s.notFaulted = true →
    (s.prog.length ≤ s.pc / 4 →
      stepReport s = .noStep { s with status := .halted } ∧ step s = .next { s with status := .halted } ∧
      step { s with status := .halted } = .next { s with status := .halted }) ∧
    (∀ t, stepReport s = .noStep t → s.prog.length ≤ s.pc / 4)

/-- R610: a step that raises changes only the status, which gets the error with the index and the text. -/
def Obligations.FaultChangesOnlyStatus : Prop :=
  ∀ (s after : State) (err : Error) (i : Nat) (x : Text), s.notFaulted = true →
    step s = .fault (.ended err i x after) →
    after = { s with status := .faulted err i x } ∧ i = s.pc / 4 ∧
    ∃ e, s.fetch i = some e ∧ x = e.text ∧ exec e.instr (s.tick e.cls) = .fault (.raise err)

/-- R415: STEP on a Faulted state changes nothing and returns the same fault; every fault leaves such a state. -/
def Obligations.FaultIsSticky : Prop :=
  (∀ (s : State) (err : Error) (i : Nat) (x : Text), s.status = .faulted err i x → stepReport s = .fault err i x s) ∧
  (∀ (s after : State) (err : Error) (i : Nat) (x : Text), step s = .fault (.ended err i x after) →
    step after = .fault (.ended err i x after))

/-- R641: a step that executes an instruction of class `c` adds 1 to `cycles` and `W(c)` to `weighted`; one that halts or
faults changes neither. -/
def Obligations.StepAdvancesCounters : Prop :=
  ∀ s : State,
    (∀ t, stepReport s = .stepped t → ∃ e, s.fetch (s.pc / 4) = some e ∧ t.cycles = s.cycles + 1 ∧
      t.weighted = s.weighted + (match e.cls with
        | .r => s.config.weightR
        | .i => s.config.weightI
        | .j => s.config.weightJ)) ∧
    (∀ t, stepReport s = .noStep t → t.cycles = s.cycles ∧ t.weighted = s.weighted) ∧
    (∀ err i x t, stepReport s = .fault err i x t → t.cycles = s.cycles ∧ t.weighted = s.weighted)

/-- R121: during the instruction at index `i` `pc` is `4*(i+1)`, and so it is after it, but for `j` and a taken `beq`, after
which it is `4*resolve(label)`; `last` is `i` (R161). -/
def Obligations.ProgramCounterAfterStep : Prop :=
  ∀ (s t : State) (i : Nat), s.pc = 4 * i → stepReport s = .stepped t →
    t.last = some i ∧ ∃ e, s.fetch i = some e ∧
      ((s.tick e.cls).pc = 4 * (i + 1) ∧ ∃ u, exec e.instr (s.tick e.cls) = .next u ∧ t = u.setLast i) ∧
      (e.op ≠ text "j" → e.op ≠ text "beq" → t.pc = 4 * (i + 1)) ∧
      (e.op = text "j" → ∃ label k, e.operands = [label] ∧ s.resolve label = .ok k ∧ t.pc = 4 * k) ∧
      (e.op = text "beq" → ∃ rs rt label a b, e.operands = [rs, rt, label] ∧
        s.regOperand rs = .ok a ∧ s.regOperand rt = .ok b ∧
        ((s.readReg a = s.readReg b ∧ ∃ k, s.resolve label = .ok k ∧ t.pc = 4 * k) ∨
         (s.readReg a ≠ s.readReg b ∧ t.pc = 4 * (i + 1))))

/-- R208: no step writes the program store or the label table; nor the parameters and the configuration (R150). -/
def Obligations.StepNeverWritesProgram : Prop :=
  ∀ s t : State, (step s = .next t ∨ ∃ err i x, step s = .fault (.ended err i x t)) →
    t.prog = s.prog ∧ t.labels = s.labels ∧ t.block = s.block ∧ t.config = s.config

/-- R225: no program performs a textual write: a textual tag after a step was there before it. -/
def Obligations.StepWritesNoTextTag : Prop :=
  ∀ (s t : State) (a : Nat) (n : Size) (x : Text), step s = .next t → t.mem.tag a = some (.text n x) →
    s.mem.tag a = some (.text n x)

/-! ## Invariants -/

/-- The invariant holds after a LOAD on a block whose parameters meet their constraints (R402, R700). -/
def Obligations.InvariantAfterLoad : Prop :=
  ∀ (block : Block) (lines : List Text) (c : LoadConfig) (s : State), 0 < block.memSize → NamesDistinct block.regNames →
    load block lines c = .ok s → s.Inv

/-- The invariant holds at reset, the model's state before any LOAD (notes/assumptions/2.md and 3.md). -/
def Obligations.InvariantAtReset : Prop := State.reset.Inv

/-- Every step keeps the invariant: the zero register's place holds 0 (R104), the recency list is distinct, without register
0 and bounded (R130), every listed byte and tag lies below `MEM_SIZE` (R221), `pc` is aligned (R122) and at most `4*L` (R123),
Halted only at the end (R411), `last` an index (R161), the program and labels as LOAD built them (R204, R205, R208, R209), the
parameters within their constraints (R12, R101) and fixed (R150). That memory is in canonical form is a clause on the model's
own representation (DESIGN CHOICE, notes/assumptions/5.md), no rule of the spec. -/
def Obligations.StepKeepsInvariant : Prop :=
  ∀ s t : State, s.Inv → step s = .next t → t.Inv

/-- Every step and the data store's own interface keep memory in its canonical form (notes/assumptions/5.md). -/
def Obligations.MemoryFormKept : Prop :=
  ∀ s t : State, s.mem.wf →
    (step s = .next t → t.mem.wf) ∧
    (∀ a n v, s.memWrite a n v = .ok t → t.mem.wf) ∧
    (∀ a n x, s.memWriteText a n x = .ok t → t.mem.wf)

/-! ## LOAD -/

/-- R700: every component of the state after a successful LOAD. The clauses about `State.reset` are the model's choice: a state
before any LOAD, which R401 does not have (DESIGN CHOICE, notes/assumptions/2.md and 3.md), with the same registers, counters,
status and memory. -/
def Obligations.StateAfterLoad : Prop :=
  (∀ (block : Block) (lines : List Text) (c : LoadConfig) (s : State), load block lines c = .ok s →
    (∀ r : RegIndex, s.regs[r] = 0#32) ∧ s.recency = [] ∧ s.pc = 0 ∧ s.status = .running ∧ s.cycles = 0 ∧
    s.weighted = 0 ∧ s.elapsed = 0 ∧ s.last = none ∧ (∀ a, s.mem.byte a = 0#8) ∧ (∀ a, s.mem.tag a = none) ∧
    loadLines [] [] lines = .ok (s.prog, s.labels) ∧ s.block = block ∧ s.config.freqHz = c.freqHz ∧
    (s.config.weightR : Int) = c.weightR ∧ (s.config.weightI : Int) = c.weightI ∧ (s.config.weightJ : Int) = c.weightJ) ∧
  (∀ f : Rat, ({ freqHz := f } : LoadConfig).weightR = 1 ∧ ({ freqHz := f } : LoadConfig).weightI = 1 ∧
    ({ freqHz := f } : LoadConfig).weightJ = 1) ∧
  (∀ r : RegIndex, State.reset.regs[r] = 0#32) ∧ State.reset.pc = 0 ∧ State.reset.status = .running ∧
  State.reset.cycles = 0 ∧ State.reset.weighted = 0 ∧ State.reset.last = none ∧ State.reset.recency = [] ∧
  (∀ a, State.reset.mem.byte a = 0#8) ∧ (∀ a, State.reset.mem.tag a = none)

/-- R203: the entries are the instruction lines in order, each decoded, and a label is bound to the number of instruction
lines before it. -/
def Obligations.LoadBindsLabels : Prop :=
  ∀ (block : Block) (lines : List Text) (c : LoadConfig) (s : State), load block lines c = .ok s →
    s.prog.map Entry.text = lines.filter (fun l => !endsWithColon l) ∧
    (∀ e ∈ s.prog, entryOf e.text = some e) ∧
    (∀ before line after, lines = before ++ line :: after → endsWithColon line = true →
      s.resolve (labelName line) = .ok (before.filter fun l => !endsWithColon l).length) ∧
    (∀ name k, s.resolve name = .ok k → ∃ line ∈ lines, endsWithColon line = true ∧ labelName line = name)

/-- R204: with a good configuration, LOAD succeeds exactly when none of (a) to (e) holds, and fails with `MalformedProgram`. -/
def Obligations.LoadRefusesMalformedPrograms : Prop :=
  ∀ (block : Block) (lines : List Text) (c : LoadConfig) (run : RunConfig), checkConfig c = .ok run →
    ((∃ s, load block lines c = .ok s) ↔
      0 < (lines.filter fun l => !endsWithColon l).length ∧
      (lines.filter fun l => !endsWithColon l).length < 2 ^ 30 ∧
      (∀ l ∈ lines, endsWithColon l = true → labelName l ≠ []) ∧
      ((lines.filter endsWithColon).map labelName).Nodup ∧
      (∀ l ∈ lines, endsWithColon l = false → tokenize l ≠ [])) ∧
    (∀ e, load block lines c = .error e → e.kind = .malformedProgram)

/-- R401, R622: LOAD checks the configuration first: it fails with `InvalidConfiguration`, whatever the lines, exactly when
the frequency is not positive or a weight is negative. -/
def Obligations.LoadChecksConfigurationFirst : Prop :=
  ∀ (block : Block) (lines : List Text) (c : LoadConfig),
    (∃ item, load block lines c = .error (.invalidConfiguration item)) ↔
      c.freqHz ≤ 0 ∨ c.weightR < 0 ∨ c.weightI < 0 ∨ c.weightJ < 0

/-! ## Runs -/

/-- R417, the straight-line law: where none of the `N` instructions of a program transfers control when it runs and none
faults, then after `N` steps from the reset state `cycles = N` and `pc = 4*N`, and the next takes no step and halts. -/
def Obligations.StraightLineLaw : Prop :=
  ∀ (block : Block) (lines : List Text) (c : LoadConfig) (s t : State), load block lines c = .ok s →
    (∀ k u e, k < s.prog.length → Host.Core.run Sys2Proof.core k s = .next u → u.fetch (u.pc / 4) = some e →
      u.transfers e = false) →
    Host.Core.run Sys2Proof.core s.prog.length s = .next t →
    t.cycles = s.prog.length ∧ t.pc = 4 * s.prog.length ∧ stepReport t = .noStep t.enterHalt

/-- R644: after `N` instructions, each of one class of weight `W`, `weighted` is `N * W` and the time `N * W / FREQ_HZ`. -/
def Obligations.UniformClassTime : Prop :=
  ∀ (block : Block) (lines : List Text) (c : LoadConfig) (s t : State) (cls : Cls) (n : Nat), load block lines c = .ok s →
    (∀ k, k < n → ∃ u e, Host.Core.run Sys2Proof.core k s = .next u ∧ u.fetch (u.pc / 4) = some e ∧ e.cls = cls) →
    Host.Core.run Sys2Proof.core n s = .next t →
    t.cycles = n ∧ t.weighted = n * weight s.config cls ∧
    t.elapsed = (n : Rat) * (weight s.config cls : Rat) / c.freqHz

/-! ## The data store -/

/-- R221: an access is in bounds exactly when `0 <= a` and `a + n <= MEM_SIZE`; out of bounds every access raises
`OutOfBounds(a, n)`. -/
def Obligations.OutOfBoundsAccess : Prop :=
  ∀ (s : State) (a : Int) (n : Size),
    (InBounds s.block.memSize a n ↔ 0 ≤ a ∧ a + (match n with | .byte => 1 | .halfword => 2 | .word => 4) ≤ s.block.memSize) ∧
    (¬ InBounds s.block.memSize a n →
      (∀ v, s.memWrite a n v = .error (.outOfBounds a n)) ∧ s.memRead a n = .error (.outOfBounds a n) ∧
      (∀ (x : Text) (bs : List Byte), utf8 x = some bs → bs.length = n.bytes →
        s.memWriteText a n x = .error (.outOfBounds a n))) ∧
    (InBounds s.block.memSize a n → ∃ v, s.memRead a n = .ok v)

/-- R222: the integer write, in every case. -/
def Obligations.IntegerWriteRule : Prop :=
  ∀ (s : State) (a : Int) (n : Size) (v : Int),
    (¬ InBounds s.block.memSize a n → s.memWrite a n v = .error (.outOfBounds a n)) ∧
    (InBounds s.block.memSize a n →
      (¬ FitsSigned n v ∧ s.block.overflow = .fault → s.memWrite a n v = .error (.sizeMismatch a n v)) ∧
      (FitsSigned n v ∨ s.block.overflow = .truncate → ∃ t, s.memWrite a n v = .ok t ∧ MemWritten s t a.toNat n v))

/-- R223: the textual write, in every case. That a text with a surrogate, which has no UTF-8 form, is one whose length is not
the size is the model's choice (DESIGN CHOICE, notes/assumptions/16.md). -/
def Obligations.TextWriteRule : Prop :=
  ∀ (s : State) (a : Int) (n : Size) (x : Text),
    (utf8 x = none ↔ ∃ c ∈ x, 0xD800 ≤ c.val ∧ c.val ≤ 0xDFFF) ∧
    (utf8 x = none → s.memWriteText a n x = .error (.textSizeMismatch a n x)) ∧
    (∀ bs, utf8 x = some bs →
      (bs.length ≠ n.bytes → s.memWriteText a n x = .error (.textSizeMismatch a n x)) ∧
      (bs.length = n.bytes →
        (¬ InBounds s.block.memSize a n → s.memWriteText a n x = .error (.outOfBounds a n)) ∧
        (InBounds s.block.memSize a n → ∃ t, s.memWriteText a n x = .ok t ∧
          (∀ k b, bs[k]? = some b → t.mem.byte (a.toNat + k) = b) ∧
          (∀ b, b < a.toNat ∨ a.toNat + n.bytes ≤ b → t.mem.byte b = s.mem.byte b) ∧
          t.mem.tag a.toNat = some (.text n x) ∧ (∀ b, b ≠ a.toNat → t.mem.tag b = s.mem.tag b) ∧
          t = { s with mem := t.mem })))

/-- R224: the read, in every case: the recorded text, or the little-endian signed reading of the bytes. -/
def Obligations.ReadRule : Prop :=
  ∀ (s : State) (a : Int) (n : Size),
    (¬ InBounds s.block.memSize a n → s.memRead a n = .error (.outOfBounds a n)) ∧
    (InBounds s.block.memSize a n →
      (∀ x, s.mem.tag a.toNat = some (.text n x) → s.memRead a n = .ok (.text x)) ∧
      ((∀ x, s.mem.tag a.toNat ≠ some (.text n x)) → ∀ u : Nat,
        u = ((List.range n.bytes).map fun k => (s.mem.byte (a.toNat + k)).toNat * 256 ^ k).sum →
        s.memRead a n = .ok (.int (if 2 ^ (8 * n.bytes - 1) ≤ u then (u : Int) - 2 ^ (8 * n.bytes) else u))))

/-- R227: the round trip. -/
def Obligations.IntegerRoundTrip : Prop :=
  ∀ (s : State) (a : Int) (n : Size) (v : Int), InBounds s.block.memSize a n → FitsSigned n v →
    ∃ t, s.memWrite a n v = .ok t ∧ t.memRead a n = .ok (.int v)

/-- R228, 95 W4: text written as one-byte textual writes of printable characters is one String row of the data snapshot. -/
def Obligations.TextIsOneStringRow : Prop :=
  ∀ (s : State) (a : Nat) (x : Text), s.mem.tags = [] → x ≠ [] → (∀ c ∈ x, 0x20 ≤ c.val ∧ c.val ≤ 0x7E) →
    a + x.length ≤ s.block.memSize → ∃ t, writeChars s a x = .ok t ∧ t.dataSnapshot = [.string a x]

/-! ## Observations -/

/-- R405, R406: the program snapshot has one row per instruction index in ascending order, with the marks at `last` and
`pc / 4`. R401, 92 D30: with no program loaded every observation is refused, as STEP is, and with one every observation
answers. That an empty program store is the state before a LOAD is the model's choice (notes/assumptions/2.md). -/
def Obligations.ProgramSnapshotRows : Prop :=
  ∀ s : State,
    (s.prog = [] → ∀ q, s.observe q = .error .noProgramLoaded) ∧
    (s.prog ≠ [] → (∀ q, ∃ r, s.observe q = .ok r) ∧
      s.observe .programSnapshot = .ok (.programSnapshot s.programSnapshot)) ∧
    s.programSnapshot.length = s.prog.length ∧
    ∀ (i : Nat) (e : Entry), s.fetch i = some e →
      s.programSnapshot[i]? = some { addr := 4 * i, text := e.text, op := e.op, isLast := decide (s.last = some i),
                                     isNext := decide (s.pc / 4 = i) }
end

