-- ==== Sys2Proof/Laws/State.lean ====
section
/-! SUPPORT. One lemma per field per update of the state, so that no proof unfolds a record update. -/

namespace Sys2Proof.Machine

variable (s : State)

/-! `State.tick` -/

@[simp] theorem State.tick_regs (c : Cls) : (s.tick c).regs = s.regs := rfl
@[simp] theorem State.tick_recency (c : Cls) : (s.tick c).recency = s.recency := rfl
@[simp] theorem State.tick_pc (c : Cls) : (s.tick c).pc = s.pc + 4 := rfl
@[simp] theorem State.tick_status (c : Cls) : (s.tick c).status = s.status := rfl
@[simp] theorem State.tick_cycles (c : Cls) : (s.tick c).cycles = s.cycles + 1 := rfl
@[simp] theorem State.tick_weighted (c : Cls) : (s.tick c).weighted = s.weighted + weight s.config c := rfl
@[simp] theorem State.tick_last (c : Cls) : (s.tick c).last = s.last := rfl
@[simp] theorem State.tick_mem (c : Cls) : (s.tick c).mem = s.mem := rfl
@[simp] theorem State.tick_prog (c : Cls) : (s.tick c).prog = s.prog := rfl
@[simp] theorem State.tick_labels (c : Cls) : (s.tick c).labels = s.labels := rfl
@[simp] theorem State.tick_block (c : Cls) : (s.tick c).block = s.block := rfl
@[simp] theorem State.tick_config (c : Cls) : (s.tick c).config = s.config := rfl

/-! `State.setPc` -/

@[simp] theorem State.setPc_regs (t : Nat) : (s.setPc t).regs = s.regs := rfl
@[simp] theorem State.setPc_recency (t : Nat) : (s.setPc t).recency = s.recency := rfl
@[simp] theorem State.setPc_pc (t : Nat) : (s.setPc t).pc = t := rfl
@[simp] theorem State.setPc_status (t : Nat) : (s.setPc t).status = s.status := rfl
@[simp] theorem State.setPc_cycles (t : Nat) : (s.setPc t).cycles = s.cycles := rfl
@[simp] theorem State.setPc_weighted (t : Nat) : (s.setPc t).weighted = s.weighted := rfl
@[simp] theorem State.setPc_last (t : Nat) : (s.setPc t).last = s.last := rfl
@[simp] theorem State.setPc_mem (t : Nat) : (s.setPc t).mem = s.mem := rfl
@[simp] theorem State.setPc_prog (t : Nat) : (s.setPc t).prog = s.prog := rfl
@[simp] theorem State.setPc_labels (t : Nat) : (s.setPc t).labels = s.labels := rfl
@[simp] theorem State.setPc_block (t : Nat) : (s.setPc t).block = s.block := rfl
@[simp] theorem State.setPc_config (t : Nat) : (s.setPc t).config = s.config := rfl

/-! `State.setLast` -/

@[simp] theorem State.setLast_regs (i : Nat) : (s.setLast i).regs = s.regs := rfl
@[simp] theorem State.setLast_recency (i : Nat) : (s.setLast i).recency = s.recency := rfl
@[simp] theorem State.setLast_pc (i : Nat) : (s.setLast i).pc = s.pc := rfl
@[simp] theorem State.setLast_status (i : Nat) : (s.setLast i).status = s.status := rfl
@[simp] theorem State.setLast_cycles (i : Nat) : (s.setLast i).cycles = s.cycles := rfl
@[simp] theorem State.setLast_weighted (i : Nat) : (s.setLast i).weighted = s.weighted := rfl
@[simp] theorem State.setLast_last (i : Nat) : (s.setLast i).last = some i := rfl
@[simp] theorem State.setLast_mem (i : Nat) : (s.setLast i).mem = s.mem := rfl
@[simp] theorem State.setLast_prog (i : Nat) : (s.setLast i).prog = s.prog := rfl
@[simp] theorem State.setLast_labels (i : Nat) : (s.setLast i).labels = s.labels := rfl
@[simp] theorem State.setLast_block (i : Nat) : (s.setLast i).block = s.block := rfl
@[simp] theorem State.setLast_config (i : Nat) : (s.setLast i).config = s.config := rfl

/-! `State.enterFault` -/

@[simp] theorem State.enterFault_regs (e : Error) (i : Nat) (x : Text) : (s.enterFault e i x).regs = s.regs := rfl
@[simp] theorem State.enterFault_recency (e : Error) (i : Nat) (x : Text) : (s.enterFault e i x).recency = s.recency := rfl
@[simp] theorem State.enterFault_pc (e : Error) (i : Nat) (x : Text) : (s.enterFault e i x).pc = s.pc := rfl
@[simp] theorem State.enterFault_status (e : Error) (i : Nat) (x : Text) : (s.enterFault e i x).status = .faulted e i x := rfl
@[simp] theorem State.enterFault_cycles (e : Error) (i : Nat) (x : Text) : (s.enterFault e i x).cycles = s.cycles := rfl
@[simp] theorem State.enterFault_weighted (e : Error) (i : Nat) (x : Text) : (s.enterFault e i x).weighted = s.weighted := rfl
@[simp] theorem State.enterFault_last (e : Error) (i : Nat) (x : Text) : (s.enterFault e i x).last = s.last := rfl
@[simp] theorem State.enterFault_mem (e : Error) (i : Nat) (x : Text) : (s.enterFault e i x).mem = s.mem := rfl
@[simp] theorem State.enterFault_prog (e : Error) (i : Nat) (x : Text) : (s.enterFault e i x).prog = s.prog := rfl
@[simp] theorem State.enterFault_labels (e : Error) (i : Nat) (x : Text) : (s.enterFault e i x).labels = s.labels := rfl
@[simp] theorem State.enterFault_block (e : Error) (i : Nat) (x : Text) : (s.enterFault e i x).block = s.block := rfl
@[simp] theorem State.enterFault_config (e : Error) (i : Nat) (x : Text) : (s.enterFault e i x).config = s.config := rfl

/-! `State.enterHalt` -/

@[simp] theorem State.enterHalt_regs : (s.enterHalt).regs = s.regs := rfl
@[simp] theorem State.enterHalt_recency : (s.enterHalt).recency = s.recency := rfl
@[simp] theorem State.enterHalt_pc : (s.enterHalt).pc = s.pc := rfl
@[simp] theorem State.enterHalt_status : (s.enterHalt).status = .halted := rfl
@[simp] theorem State.enterHalt_cycles : (s.enterHalt).cycles = s.cycles := rfl
@[simp] theorem State.enterHalt_weighted : (s.enterHalt).weighted = s.weighted := rfl
@[simp] theorem State.enterHalt_last : (s.enterHalt).last = s.last := rfl
@[simp] theorem State.enterHalt_mem : (s.enterHalt).mem = s.mem := rfl
@[simp] theorem State.enterHalt_prog : (s.enterHalt).prog = s.prog := rfl
@[simp] theorem State.enterHalt_labels : (s.enterHalt).labels = s.labels := rfl
@[simp] theorem State.enterHalt_block : (s.enterHalt).block = s.block := rfl
@[simp] theorem State.enterHalt_config : (s.enterHalt).config = s.config := rfl

/-! `State.writeReg`: everything but the registers and the recency list. -/

@[simp] theorem State.writeReg_pc (r : RegIndex) (v : Int) : (s.writeReg r v).pc = s.pc := by
  unfold State.writeReg; split <;> rfl
@[simp] theorem State.writeReg_status (r : RegIndex) (v : Int) : (s.writeReg r v).status = s.status := by
  unfold State.writeReg; split <;> rfl
@[simp] theorem State.writeReg_cycles (r : RegIndex) (v : Int) : (s.writeReg r v).cycles = s.cycles := by
  unfold State.writeReg; split <;> rfl
@[simp] theorem State.writeReg_weighted (r : RegIndex) (v : Int) : (s.writeReg r v).weighted = s.weighted := by
  unfold State.writeReg; split <;> rfl
@[simp] theorem State.writeReg_last (r : RegIndex) (v : Int) : (s.writeReg r v).last = s.last := by
  unfold State.writeReg; split <;> rfl
@[simp] theorem State.writeReg_mem (r : RegIndex) (v : Int) : (s.writeReg r v).mem = s.mem := by
  unfold State.writeReg; split <;> rfl
@[simp] theorem State.writeReg_prog (r : RegIndex) (v : Int) : (s.writeReg r v).prog = s.prog := by
  unfold State.writeReg; split <;> rfl
@[simp] theorem State.writeReg_labels (r : RegIndex) (v : Int) : (s.writeReg r v).labels = s.labels := by
  unfold State.writeReg; split <;> rfl
@[simp] theorem State.writeReg_block (r : RegIndex) (v : Int) : (s.writeReg r v).block = s.block := by
  unfold State.writeReg; split <;> rfl
@[simp] theorem State.writeReg_config (r : RegIndex) (v : Int) : (s.writeReg r v).config = s.config := by
  unfold State.writeReg; split <;> rfl

theorem State.writeReg_zero (v : Int) : s.writeReg 0 v = s := rfl

theorem State.writeReg_recency (r : RegIndex) (v : Int) :
    (s.writeReg r v).recency = if r = 0 then s.recency else touch r s.recency := by
  unfold State.writeReg; split <;> rfl

/-! `State.loaded` -/

@[simp] theorem State.loaded_regs (b : Block) (c : RunConfig) (p : List Entry) (l : List (Text × Nat)) :
    (State.loaded b c p l).regs = Vector.replicate 32 0#32 := rfl
@[simp] theorem State.loaded_recency (b : Block) (c : RunConfig) (p : List Entry) (l : List (Text × Nat)) :
    (State.loaded b c p l).recency = [] := rfl
@[simp] theorem State.loaded_pc (b : Block) (c : RunConfig) (p : List Entry) (l : List (Text × Nat)) :
    (State.loaded b c p l).pc = 0 := rfl
@[simp] theorem State.loaded_status (b : Block) (c : RunConfig) (p : List Entry) (l : List (Text × Nat)) :
    (State.loaded b c p l).status = .running := rfl
@[simp] theorem State.loaded_cycles (b : Block) (c : RunConfig) (p : List Entry) (l : List (Text × Nat)) :
    (State.loaded b c p l).cycles = 0 := rfl
@[simp] theorem State.loaded_weighted (b : Block) (c : RunConfig) (p : List Entry) (l : List (Text × Nat)) :
    (State.loaded b c p l).weighted = 0 := rfl
@[simp] theorem State.loaded_last (b : Block) (c : RunConfig) (p : List Entry) (l : List (Text × Nat)) :
    (State.loaded b c p l).last = none := rfl
@[simp] theorem State.loaded_mem (b : Block) (c : RunConfig) (p : List Entry) (l : List (Text × Nat)) :
    (State.loaded b c p l).mem = { cells := [], tags := [] } := rfl
@[simp] theorem State.loaded_prog (b : Block) (c : RunConfig) (p : List Entry) (l : List (Text × Nat)) :
    (State.loaded b c p l).prog = p := rfl
@[simp] theorem State.loaded_labels (b : Block) (c : RunConfig) (p : List Entry) (l : List (Text × Nat)) :
    (State.loaded b c p l).labels = l := rfl
@[simp] theorem State.loaded_block (b : Block) (c : RunConfig) (p : List Entry) (l : List (Text × Nat)) :
    (State.loaded b c p l).block = b := rfl
@[simp] theorem State.loaded_config (b : Block) (c : RunConfig) (p : List Entry) (l : List (Text × Nat)) :
    (State.loaded b c p l).config = c := rfl

end Sys2Proof.Machine
end

