-- ==== Sys2Proof/Laws/Load.lean ====
section
/-! SUPPORT. What LOAD and its parts can do, said once: provers cite these and do not unfold `load` or `loadLines`. -/

namespace Sys2Proof.Machine

/-- The configuration check goes on exactly on a positive frequency and weights that are not negative (spec R401). -/
theorem checkConfig_ok_iff {c : LoadConfig} {run : RunConfig} :
    checkConfig c = .ok run ↔ 0 < c.freqHz ∧ 0 ≤ c.weightR ∧ 0 ≤ c.weightI ∧ 0 ≤ c.weightJ ∧
      run = { freqHz := c.freqHz, weightR := c.weightR.toNat, weightI := c.weightI.toNat, weightJ := c.weightJ.toNat } := by
  unfold checkConfig
  split
  · rename_i h; exact ⟨nofun, fun g => absurd g.1 (not_lt.mpr h)⟩
  split
  · rename_i h; exact ⟨nofun, fun g => absurd g.2.1 (not_le.mpr h)⟩
  split
  · rename_i h; exact ⟨nofun, fun g => absurd g.2.2.1 (not_le.mpr h)⟩
  split
  · rename_i h; exact ⟨nofun, fun g => absurd g.2.2.2.1 (not_le.mpr h)⟩
  rename_i h1 h2 h3 h4
  exact ⟨fun h => ⟨not_le.mp h1, not_lt.mp h2, not_lt.mp h3, not_lt.mp h4, (Except.ok.inj h).symm⟩, fun h => by rw [h.2.2.2.2]⟩

/-- A configuration refused is refused as one (spec R401). -/
theorem checkConfig_error {c : LoadConfig} {e : Error} (h : checkConfig c = .error e) :
    ∃ item, e = .invalidConfiguration item := by
  unfold checkConfig at h
  split at h
  · exact ⟨_, (Except.error.inj h).symm⟩
  split at h
  · exact ⟨_, (Except.error.inj h).symm⟩
  split at h
  · exact ⟨_, (Except.error.inj h).symm⟩
  split at h
  · exact ⟨_, (Except.error.inj h).symm⟩
  exact nomatch h

/-- The count check goes on exactly on a program of 1 to `2^30 - 1` entries, and changes nothing (spec R204). -/
theorem checkCount_ok_iff {p q : List Entry × List (Text × Nat)} :
    checkCount p = .ok q ↔ 0 < p.1.length ∧ p.1.length < 2 ^ 30 ∧ q = p := by
  unfold checkCount
  split
  · rename_i h; exact ⟨nofun, fun g => absurd h g.1.ne'⟩
  split
  · rename_i h; exact ⟨nofun, fun g => absurd g.2.1 (not_lt.mpr h)⟩
  rename_i h1 h2
  exact ⟨fun h => ⟨Nat.pos_of_ne_zero h1, not_le.mp h2, (Except.ok.inj h).symm⟩, fun h => by rw [h.2.2]⟩

/-- LOAD goes on exactly where its three checks do, and to the state after reset with the program (spec R402). -/
theorem load_ok_iff {block : Block} {lines : List Text} {c : LoadConfig} {s : State} :
    load block lines c = .ok s ↔ ∃ run prog labels, checkConfig c = .ok run ∧
      loadLines [] [] lines = .ok (prog, labels) ∧ 0 < prog.length ∧ prog.length < 2 ^ 30 ∧
      s = State.loaded block run prog labels := by
  constructor
  · intro h
    unfold load at h
    cases hc : checkConfig c with
    | error e => rw [hc] at h; exact nomatch h
    | ok run =>
      cases hl : loadLines [] [] lines with
      | error e => rw [hc, hl] at h; exact nomatch h
      | ok p =>
        cases hk : checkCount p with
        | error e => rw [hc, hl] at h; simp [bind, Except.bind, hk] at h
        | ok q =>
          obtain ⟨h1, h2, rfl⟩ := checkCount_ok_iff.mp hk
          rw [hc, hl] at h
          simp only [bind, Except.bind, hk, Except.ok.injEq] at h
          exact ⟨run, _, _, rfl, rfl, h1, h2, h.symm⟩
  · rintro ⟨run, prog, labels, hc, hl, h1, h2, rfl⟩
    have hk := (checkCount_ok_iff (p := (prog, labels)) (q := (prog, labels))).mpr ⟨h1, h2, rfl⟩
    simp [load, hc, hl, bind, Except.bind, hk]

/-- An entry made of a line holds the line, and making it again gives it (spec R209). -/
theorem entryOf_some {line : Text} {e : Entry} (h : entryOf line = some e) :
    e.text = line ∧ entryOf e.text = some e ∧ tokenize line ≠ [] := by
  obtain ⟨d, hd, rfl⟩ := Option.map_eq_some_iff.mp h
  refine ⟨rfl, h, fun h0 => ?_⟩
  simp [decode, h0] at hd

/-- One line of the pass (spec R203, R209): a label line binds its new, non-empty name to the number of entries so far, an
instruction line with a token adds its entry. -/
theorem loadLines_cons_ok_iff {prog : List Entry} {labels : List (Text × Nat)} {line : Text} {lines : List Text}
    {r : List Entry × List (Text × Nat)} :
    loadLines prog labels (line :: lines) = .ok r ↔
      (endsWithColon line = true ∧ labelName line ≠ [] ∧ lookupKey (labelName line) labels = none ∧
        loadLines prog (labels ++ [(labelName line, prog.length)]) lines = .ok r) ∨
      (endsWithColon line = false ∧ ∃ e, entryOf line = some e ∧ loadLines (prog ++ [e]) labels lines = .ok r) := by
  rw [loadLines]
  cases hc : endsWithColon line with
  | true =>
    by_cases hn : labelName line = []
    · simp [hn]
    · cases hl : lookupKey (labelName line) labels <;> simp [hn]
  | false => cases he : entryOf line <;> simp

/-- The pass refuses a line as `MalformedProgram` only (spec R204). -/
theorem loadLines_error {lines : List Text} {prog : List Entry} {labels : List (Text × Nat)} {e : Error}
    (h : loadLines prog labels lines = .error e) : e.kind = .malformedProgram := by
  induction lines generalizing prog labels with
  | nil => exact nomatch h
  | cons x xs ih =>
    unfold loadLines at h
    split at h
    · split at h
      · exact Except.error.inj h ▸ rfl
      split at h
      · exact Except.error.inj h ▸ rfl
      exact ih h
    · split at h
      · exact Except.error.inj h ▸ rfl
      exact ih h

end Sys2Proof.Machine
end

