-- ==== Sys2Proof/Laws/Memory.lean ====
section
/-! SUPPORT. The data store: what a byte or a tag reads as after each operation, and that each keeps the canonical form. -/

namespace Sys2Proof.Machine

section Lists
variable {α : Type} {a b : Nat} {v : α} {l : List (Nat × α)}

/-! Lists of pairs by address. -/

@[simp] theorem lookupKey_putAt_self : lookupKey a (putAt a v l) = some v := by
  induction l with
  | nil => simp [putAt, lookupKey]
  | cons p rest ih =>
    obtain ⟨k, w⟩ := p
    unfold putAt
    split
    · simp [lookupKey]
    · split
      · simp [lookupKey]
      · rename_i h; simp [lookupKey, h, ih]

theorem lookupKey_putAt_ne (h : b ≠ a) : lookupKey b (putAt a v l) = lookupKey b l := by
  induction l with
  | nil => simp [putAt, lookupKey, h]
  | cons p rest ih =>
    obtain ⟨k, w⟩ := p
    unfold putAt
    split
    · simp [lookupKey, h]
    · split
      · rename_i hk; subst hk; simp [lookupKey, h]
      · simp [lookupKey, ih]

@[simp] theorem lookupKey_dropAt_self : lookupKey a (dropAt a l) = none := by
  induction l with
  | nil => rfl
  | cons p rest ih =>
    obtain ⟨k, w⟩ := p
    by_cases h : k = a
    · simpa [dropAt, h] using ih
    · simpa [dropAt, h, lookupKey, Ne.symm h] using ih

theorem lookupKey_dropAt_ne (h : b ≠ a) : lookupKey b (dropAt a l) = lookupKey b l := by
  induction l with
  | nil => rfl
  | cons p rest ih =>
    obtain ⟨k, w⟩ := p
    by_cases hk : k = a
    · subst hk; simpa [dropAt, lookupKey, h] using ih
    · by_cases hb : b = k
      · subst hb; simp [dropAt, hk, lookupKey]
      · simpa [dropAt, hk, lookupKey, hb] using ih

/-- What a list holds after a pair is put: the pair, and pairs that were there. -/
theorem mem_putAt {p : Nat × α} (h : p ∈ putAt a v l) : p = (a, v) ∨ p ∈ l := by
  induction l with
  | nil => simpa [putAt] using h
  | cons q rest ih =>
    obtain ⟨k, w⟩ := q
    unfold putAt at h
    split at h
    · simpa using h
    · split at h
      · rcases List.mem_cons.mp h with h | h <;> simp [h]
      · rcases List.mem_cons.mp h with h | h
        · simp [h]
        · rcases ih h with h | h <;> simp [h]

theorem rising_putAt (h : Rising l) : Rising (putAt a v l) := by
  induction l with
  | nil => simp [putAt, Rising]
  | cons q rest ih =>
    obtain ⟨k, w⟩ := q
    obtain ⟨hk, hr⟩ := List.pairwise_cons.mp h
    unfold putAt
    split
    · rename_i hak
      refine List.pairwise_cons.mpr ⟨fun p hp => ?_, h⟩
      rcases List.mem_cons.mp hp with rfl | hp
      · exact hak
      · exact Nat.lt_trans hak (hk p hp)
    · split
      · rename_i _ he; subst he
        exact List.pairwise_cons.mpr ⟨hk, hr⟩
      · rename_i h1 h2
        refine List.pairwise_cons.mpr ⟨fun p hp => ?_, ih hr⟩
        rcases mem_putAt hp with rfl | hp
        · show k < a; omega
        · exact hk p hp

theorem rising_dropAt (h : Rising l) : Rising (dropAt a l) := List.Pairwise.filter _ h

theorem mem_dropAt {p : Nat × α} (h : p ∈ dropAt a l) : p ∈ l := (List.mem_filter.mp h).1

/-- A key that is listed is found, and what is found is listed. -/
theorem mem_of_lookupKey {κ : Type} [DecidableEq κ] {k : κ} {l : List (κ × α)} {v : α} (h : lookupKey k l = some v) :
    (k, v) ∈ l := by
  induction l with
  | nil => simp [lookupKey] at h
  | cons p rest ih =>
    obtain ⟨k', w⟩ := p
    unfold lookupKey at h
    split at h
    · simp_all
    · simp [ih h]

end Lists

variable (m : Memory) (a b : Nat)

/-! Bytes. -/

@[simp] theorem Memory.byte_setByte_self (x : Byte) : (m.setByte a x).byte a = x := by
  unfold Memory.setByte Memory.byte
  by_cases h : x = 0#8 <;> simp [h]

theorem Memory.byte_setByte_ne (x : Byte) (h : b ≠ a) : (m.setByte a x).byte b = m.byte b := by
  unfold Memory.setByte Memory.byte
  by_cases hx : x = 0#8
  · simp [hx, lookupKey_dropAt_ne h]
  · simp [hx, lookupKey_putAt_ne h]

theorem Memory.byte_setByte (x : Byte) : (m.setByte a x).byte b = if b = a then x else m.byte b := by
  split
  · rename_i h; subst h; simp
  · rename_i h; exact m.byte_setByte_ne a b x h

@[simp] theorem Memory.tags_setByte (x : Byte) : (m.setByte a x).tags = m.tags := rfl

@[simp] theorem Memory.tag_setByte (x : Byte) : (m.setByte a x).tag b = m.tag b := rfl

/-- Every byte after a run of bytes is written: the run's bytes inside it, the old ones outside. -/
theorem Memory.byte_setBytes (bs : List Byte) :
    (m.setBytes a bs).byte b = if h : a ≤ b ∧ b - a < bs.length then bs[b - a] else m.byte b := by
  induction bs generalizing m a with
  | nil => simp [Memory.setBytes]
  | cons x xs ih =>
    rw [Memory.setBytes, ih]
    by_cases h1 : a + 1 ≤ b ∧ b - (a + 1) < xs.length
    · have h2 : a ≤ b ∧ b - a < (x :: xs).length := by simp only [List.length_cons]; omega
      have h3 : b - a = (b - (a + 1)) + 1 := by omega
      rw [dif_pos h1, dif_pos h2]
      simp [h3]
    · rw [dif_neg h1]
      by_cases hb : b = a
      · subst hb; simp
      · rw [Memory.byte_setByte_ne _ _ _ _ hb, dif_neg]
        simp only [List.length_cons]; omega

theorem Memory.byte_setBytes_outside (bs : List Byte) (h : b < a ∨ a + bs.length ≤ b) :
    (m.setBytes a bs).byte b = m.byte b := by
  rw [Memory.byte_setBytes, dif_neg]; omega

theorem Memory.byte_setBytes_inside (bs : List Byte) (k : Nat) (h : k < bs.length) :
    (m.setBytes a bs).byte (a + k) = bs[k] := by
  rw [Memory.byte_setBytes, dif_pos (by omega)]; simp

@[simp] theorem Memory.tags_setBytes (bs : List Byte) : (m.setBytes a bs).tags = m.tags := by
  induction bs generalizing m a with
  | nil => rfl
  | cons x xs ih => simp [Memory.setBytes, ih]

@[simp] theorem Memory.tag_setBytes (bs : List Byte) : (m.setBytes a bs).tag b = m.tag b := by
  simp [Memory.tag]

/-! Tags. -/

@[simp] theorem Memory.byte_setTag (t : Tag) : (m.setTag a t).byte b = m.byte b := rfl

@[simp] theorem Memory.cells_setTag (t : Tag) : (m.setTag a t).cells = m.cells := rfl

@[simp] theorem Memory.tag_setTag_self (t : Tag) : (m.setTag a t).tag a = some t := by
  simp [Memory.setTag, Memory.tag]

theorem Memory.tag_setTag_ne (t : Tag) (h : b ≠ a) : (m.setTag a t).tag b = m.tag b := by
  simp [Memory.setTag, Memory.tag, lookupKey_putAt_ne h]

/-! The canonical form is kept by every operation. -/

theorem Memory.setByte_wf {m : Memory} (h : m.wf) (a : Nat) (x : Byte) : (m.setByte a x).wf := by
  obtain ⟨h1, h2, h3⟩ := h
  unfold Memory.setByte
  by_cases hx : x = 0#8
  · rw [if_pos hx]
    exact ⟨rising_dropAt h1, fun c hc => h2 c (mem_dropAt hc), h3⟩
  · rw [if_neg hx]
    refine ⟨rising_putAt h1, fun c hc => ?_, h3⟩
    rcases mem_putAt hc with rfl | hc
    · exact hx
    · exact h2 c hc

theorem Memory.setBytes_wf {m : Memory} (h : m.wf) (a : Nat) (bs : List Byte) : (m.setBytes a bs).wf := by
  induction bs generalizing m a with
  | nil => exact h
  | cons x xs ih => exact ih (Memory.setByte_wf h a x) (a + 1)

theorem Memory.setTag_wf {m : Memory} (h : m.wf) (a : Nat) (t : Tag) : (m.setTag a t).wf :=
  ⟨h.1, h.2.1, rising_putAt h.2.2⟩

theorem Memory.reset_wf : State.reset.mem.wf := by simp [State.reset, State.loaded, Memory.wf, Rising]

/-! Where the listed cells lie. -/

/-- A cell listed after a run of bytes is written lies in the run or was listed before. -/
theorem Memory.cells_setBytes {m : Memory} {a : Nat} {bs : List Byte} {c : Host.Cell} (h : c ∈ (m.setBytes a bs).cells) :
    (a ≤ c.1 ∧ c.1 < a + bs.length) ∨ c ∈ m.cells := by
  induction bs generalizing m a with
  | nil => exact .inr h
  | cons x xs ih =>
    rcases ih h with h | h
    · left; simp only [List.length_cons]; omega
    · unfold Memory.setByte at h
      by_cases hx : x = 0#8
      · rw [if_pos hx] at h; exact .inr (mem_dropAt h)
      · rw [if_neg hx] at h
        rcases mem_putAt h with rfl | h
        · left; simp
        · exact .inr h

theorem Memory.mem_tags_setTag {m : Memory} {a : Nat} {t : Tag} {p : Nat × Tag} (h : p ∈ (m.setTag a t).tags) :
    p = (a, t) ∨ p ∈ m.tags := mem_putAt h

end Sys2Proof.Machine
end

