-- ==== Sys2Proof/Laws/Observe.lean ====
section
/-! SUPPORT. What an observation answers, said once. -/

namespace Sys2Proof.Machine

/-- An observation answers exactly where a program is loaded, and then its report (spec R401, R405). -/
theorem State.observe_ok_iff {s : State} {q : Query} {r : Report} : s.observe q = .ok r ↔ s.prog ≠ [] ∧ r = s.report q := by
  unfold State.observe
  split
  · rename_i h; exact ⟨nofun, fun g => absurd h g.1⟩
  · rename_i h; exact ⟨fun g => ⟨h, (Except.ok.inj g).symm⟩, fun g => by rw [g.2]⟩

/-- An observation is refused exactly where no program is loaded (spec R401). -/
theorem State.observe_error_iff {s : State} {q : Query} {e : Refusal} :
    s.observe q = .error e ↔ s.prog = [] ∧ e = .noProgramLoaded := by
  unfold State.observe
  split
  · rename_i h; exact ⟨fun g => ⟨h, (Except.error.inj g).symm⟩, fun g => by rw [g.2]⟩
  · rename_i h; exact ⟨nofun, fun g => absurd g.1 h⟩

end Sys2Proof.Machine
end

