-- ==== Sys2Proof/Laws/Ops.lean ====
section
/-! SUPPORT. One lemma per shared operation that says everything it can do, and one per meaning that says when it goes on
and to which state. Provers cite these and do not unfold the operations. -/

namespace Sys2Proof.Machine

/-! Registers. -/

theorem State.readReg_zero (s : State) : s.readReg 0 = 0 := rfl

theorem State.readReg_of_ne (s : State) {r : RegIndex} (h : r ≠ 0) : s.readReg r = s.regs[r].toInt := by
  simp [State.readReg, h]

/-- `wrap32` in plain numerals. -/
theorem wrap32_eq (v : Int) : wrap32 v = (v + 2147483648) % 4294967296 - 2147483648 := by
  unfold wrap32; norm_num

theorem toInt_ofInt_bmod (v : Int) : (BitVec.ofInt 32 v).toInt = v.bmod 4294967296 := by simp

/-- The value a word of the wrapped integer has (spec R15, R103). -/
theorem toInt_ofInt (v : Int) : (BitVec.ofInt 32 v).toInt = wrap32 v := by
  rw [wrap32_eq, toInt_ofInt_bmod, Int.bmod_def]
  split <;> omega

theorem State.writeReg_regs (s : State) {r : RegIndex} (h : r ≠ 0) (v : Int) :
    (s.writeReg r v).regs = s.regs.set r (BitVec.ofInt 32 v) := by
  unfold State.writeReg; rw [if_neg h]

/-- Reading any register after a write of one (spec R110, R111). -/
theorem State.readReg_writeReg (s : State) (r q : RegIndex) (v : Int) :
    (s.writeReg r v).readReg q = if q = r ∧ r ≠ 0 then wrap32 v else s.readReg q := by
  by_cases hr : r = 0
  · rw [hr, State.writeReg_zero, if_neg (fun h => h.2 rfl)]
  by_cases hq : q = 0
  · rw [hq, State.readReg_zero, State.readReg_zero, if_neg (fun h => hr h.1.symm)]
  · rw [State.readReg_of_ne _ hq, State.readReg_of_ne _ hq, State.writeReg_regs s hr]
    by_cases h : q = r
    · rw [if_pos ⟨h, hr⟩, ← toInt_ofInt, h]
      exact congrArg BitVec.toInt (Vector.getElem_set_self _)
    · rw [if_neg (fun h' => h h'.1)]
      exact congrArg BitVec.toInt (Vector.getElem_set_ne _ _ (fun h' => h (Fin.ext h'.symm)))

/-- A register read depends on the registers alone. -/
theorem State.readReg_congr {s t : State} (h : t.regs = s.regs) (r : RegIndex) : t.readReg r = s.readReg r := by
  simp [State.readReg, h]

/-- The cap of R130 does not bind where the list, `r` moved to its end, is at most 32 long. -/
theorem touch_eq {r : RegIndex} {l : List RegIndex} (h : (l.filter (· ≠ r)).length < 32) :
    touch r l = l.filter (· ≠ r) ++ [r] := by
  unfold touch
  have : (l.filter (· ≠ r) ++ [r]).length - 32 = 0 := by simp only [List.length_append, List.length_singleton]; omega
  simp only [this, List.drop_zero]

/-! Labels. -/

theorem State.resolve_ok_iff {s : State} {name : Text} {k : Nat} :
    s.resolve name = .ok k ↔ lookupKey name s.labels = some k := by
  unfold State.resolve; split <;> simp_all

theorem State.resolve_error_iff {s : State} {name : Text} {e : Error} :
    s.resolve name = .error e ↔ lookupKey name s.labels = none ∧ e = .undefinedLabel name := by
  unfold State.resolve
  cases lookupKey name s.labels <;> simp [eq_comm]

theorem State.target_eq (s : State) (name : Text) :
    s.target name = match lookupKey name s.labels with
      | some k => .ok (4 * k)
      | none => .error (.undefinedLabel name) := by
  unfold State.target State.resolve
  cases lookupKey name s.labels <;> rfl

/-! Operands. -/

theorem orInvalid_ok_iff {α : Type} {tok : Text} {o : Option α} {v : α} : orInvalid tok o = .ok v ↔ o = some v := by
  cases o <;> simp [orInvalid]

theorem orInvalid_error_iff {α : Type} {tok : Text} {o : Option α} {e : Error} :
    orInvalid tok o = .error e ↔ o = none ∧ e = .invalidOperand tok := by
  cases o <;> simp [orInvalid, eq_comm]

/-! The data store. -/

/-- `MemWrite` goes on exactly in bounds, with a value the size takes, and to this state (spec R222). -/
theorem State.memWrite_ok_iff {s t : State} {a : Int} {n : Size} {v : Int} :
    s.memWrite a n v = .ok t ↔ InBounds s.block.memSize a n ∧ (FitsSigned n v ∨ s.block.overflow = .truncate) ∧
      t = { s with mem := (s.mem.setBytes a.toNat (littleEndian v n.bytes)).setTag a.toNat (.int n) } := by
  unfold State.memWrite
  split
  · rename_i h1
    exact ⟨fun h => (nomatch h), fun h => absurd h.1 h1⟩
  · rename_i h1
    split
    · rename_i h2
      refine ⟨fun h => (nomatch h), fun h => ?_⟩
      rcases h.2.1 with h3 | h3
      · exact absurd h3 h2.1
      · rw [h3] at h2; exact (nomatch h2.2)
    · rename_i h2
      refine ⟨fun h => ⟨not_not.mp h1, ?_, (Except.ok.inj h).symm⟩, fun h => by rw [h.2.2]⟩
      by_cases h3 : FitsSigned n v
      · exact .inl h3
      · right
        cases h4 : s.block.overflow
        · rfl
        · exact absurd ⟨h3, h4⟩ h2

/-- `MemWrite` raises out of bounds, or under `Fault` on a value outside the signed range (spec R222). -/
theorem State.memWrite_error_iff {s : State} {a : Int} {n : Size} {v : Int} {e : Error} :
    s.memWrite a n v = .error e ↔
      (¬ InBounds s.block.memSize a n ∧ e = .outOfBounds a n) ∨
      (InBounds s.block.memSize a n ∧ ¬ FitsSigned n v ∧ s.block.overflow = .fault ∧ e = .sizeMismatch a n v) := by
  unfold State.memWrite
  split
  · rename_i h1
    refine ⟨fun h => .inl ⟨h1, (Except.error.inj h).symm⟩, fun h => ?_⟩
    rcases h with h | h
    · rw [h.2]
    · exact absurd h.1 h1
  · rename_i h1
    split
    · rename_i h2
      refine ⟨fun h => .inr ⟨not_not.mp h1, h2.1, h2.2, (Except.error.inj h).symm⟩, fun h => ?_⟩
      rcases h with h | h
      · exact absurd h.1 h1
      · rw [h.2.2.2]
    · rename_i h2
      refine ⟨fun h => (nomatch h), fun h => ?_⟩
      rcases h with h | h
      · exact absurd h.1 h1
      · exact absurd ⟨h.2.1, h.2.2.1⟩ h2

@[simp] theorem littleEndian_length (v : Int) (n : Nat) : (littleEndian v n).length = n := by simp [littleEndian]

theorem littleEndian_getElem (v : Int) (n k : Nat) (h : k < (littleEndian v n).length) : (littleEndian v n)[k] = byteOf v k := by
  simp [littleEndian]

/-- The bytes and tags after a `MemWrite` (spec R222, R226). -/
theorem State.memWrite_effect {s t : State} {a : Int} {n : Size} {v : Int} (h : s.memWrite a n v = .ok t) :
    (∀ k, k < n.bytes → t.mem.byte (a.toNat + k) = byteOf v k) ∧
    (∀ b, b < a.toNat ∨ a.toNat + n.bytes ≤ b → t.mem.byte b = s.mem.byte b) ∧
    t.mem.tag a.toNat = some (.int n) ∧
    (∀ b, b ≠ a.toNat → t.mem.tag b = s.mem.tag b) ∧
    t = { s with mem := t.mem } := by
  obtain ⟨-, -, rfl⟩ := State.memWrite_ok_iff.mp h
  refine ⟨fun k hk => ?_, fun b hb => ?_, by simp, fun b hb => ?_, rfl⟩
  · simp only [Memory.byte_setTag]
    rw [Memory.byte_setBytes_inside _ _ _ _ (by simpa using hk), littleEndian_getElem]
  · simp only [Memory.byte_setTag]
    exact Memory.byte_setBytes_outside _ _ _ _ (by simpa using hb)
  · simp [Memory.tag_setTag_ne _ _ _ _ hb]

/-- `MemWrite` keeps the canonical form. -/
theorem State.memWrite_wf {s t : State} {a : Int} {n : Size} {v : Int} (h : s.memWrite a n v = .ok t) (hw : s.mem.wf) :
    t.mem.wf := by
  obtain ⟨-, -, rfl⟩ := State.memWrite_ok_iff.mp h
  exact Memory.setTag_wf (Memory.setBytes_wf hw _ _) _ _

/-- `MemWriteText` goes on exactly on a text of the size's bytes in bounds, and to this state (spec R223). -/
theorem State.memWriteText_ok_iff {s t : State} {a : Int} {n : Size} {x : Text} :
    s.memWriteText a n x = .ok t ↔ ∃ bs, utf8 x = some bs ∧ bs.length = n.bytes ∧ InBounds s.block.memSize a n ∧
      t = { s with mem := (s.mem.setBytes a.toNat bs).setTag a.toNat (.text n x) } := by
  unfold State.memWriteText
  cases utf8 x with
  | none => exact ⟨nofun, fun ⟨_, h, _⟩ => nomatch h⟩
  | some bs =>
    simp only [Option.some.injEq, exists_eq_left']
    split
    · rename_i h1; exact ⟨nofun, fun h => absurd h.1 h1⟩
    split
    · rename_i h2; exact ⟨nofun, fun h => absurd h.2.1 h2⟩
    rename_i h1 h2
    exact ⟨fun h => ⟨not_not.mp h1, not_not.mp h2, (Except.ok.inj h).symm⟩, fun h => by rw [h.2.2]⟩

/-- `MemWriteText` raises on a text whose UTF-8 length is not the size, then out of bounds (spec R223). -/
theorem State.memWriteText_error_iff {s : State} {a : Int} {n : Size} {x : Text} {e : Error} :
    s.memWriteText a n x = .error e ↔
      ((∀ bs, utf8 x = some bs → bs.length ≠ n.bytes) ∧ e = .textSizeMismatch a n x) ∨
      ((∃ bs, utf8 x = some bs ∧ bs.length = n.bytes) ∧ ¬ InBounds s.block.memSize a n ∧ e = .outOfBounds a n) := by
  unfold State.memWriteText
  cases utf8 x with
  | none => simp [eq_comm]
  | some bs =>
    simp only [Option.some.injEq, exists_eq_left', forall_eq']
    by_cases h1 : bs.length = n.bytes
    · by_cases h2 : InBounds s.block.memSize a n
      · rw [if_neg (not_not.mpr h1), if_neg (not_not.mpr h2)]; simp [h1, h2]
      · rw [if_neg (not_not.mpr h1), if_pos h2]; simp [h1, h2, eq_comm]
    · rw [if_pos h1]; simp [h1, eq_comm]

/-- `MemWriteText` keeps the canonical form. -/
theorem State.memWriteText_wf {s t : State} {a : Int} {n : Size} {x : Text} (h : s.memWriteText a n x = .ok t)
    (hw : s.mem.wf) : t.mem.wf := by
  obtain ⟨bs, -, -, -, rfl⟩ := State.memWriteText_ok_iff.mp h
  exact Memory.setTag_wf (Memory.setBytes_wf hw _ _) _ _

/-! What an instruction rule answers. -/

theorem settle_next_iff {x : Except Error State} {t : State} : settle x = .next t ↔ x = .ok t := by
  cases x <;> simp [settle]

theorem settle_fault_iff {x : Except Error State} {f : Fault} :
    settle x = .fault f ↔ ∃ e, x = .error e ∧ f = .raise e := by
  cases x <;> simp [settle, eq_comm]

theorem settle_ne_refused (x : Except Error State) (r : Refusal) : settle x ≠ .refused r := by
  cases x <;> simp [settle]

theorem bind_ok_iff {α β : Type} {x : Except Error α} {f : α → Except Error β} {b : β} :
    (x >>= f) = .ok b ↔ ∃ a, x = .ok a ∧ f a = .ok b := by
  cases x <;> simp [bind, Except.bind]

theorem bind_error_iff {α β : Type} {x : Except Error α} {f : α → Except Error β} {e : Error} :
    (x >>= f) = .error e ↔ x = .error e ∨ ∃ a, x = .ok a ∧ f a = .error e := by
  cases x <;> simp [bind, Except.bind]

/-! When each meaning goes on, and to which state. -/

theorem execLi_next_iff {ops : List Text} {s t : State} :
    execLi ops s = .next t ↔ ∃ rd imm d v, ops = [rd, imm] ∧ parseReg s.block.regNames rd = some d ∧
      parseImm imm = some v ∧ t = s.writeReg d v := by
  unfold execLi
  rw [settle_next_iff]
  split
  · simp only [bind_ok_iff, State.regOperand, immOperand, orInvalid_ok_iff]
    simp [eq_comm]
  · rename_i h; simp only [wrongCount, reduceCtorEq, false_iff]; rintro ⟨rd, imm, d, v, rfl, -⟩; exact h _ _ rfl

theorem execLa_next_iff {ops : List Text} {s t : State} :
    execLa ops s = .next t ↔ ∃ rd x d v, ops = [rd, x] ∧ parseReg s.block.regNames rd = some d ∧
      s.numlabOperand x = .ok v ∧ t = s.writeReg d v := by
  unfold execLa
  rw [settle_next_iff]
  split
  · simp only [bind_ok_iff, State.regOperand, orInvalid_ok_iff]
    simp [eq_comm]
  · rename_i h; simp only [wrongCount, reduceCtorEq, false_iff]; rintro ⟨rd, imm, d, v, rfl, -⟩; exact h _ _ rfl

theorem execAdd_next_iff {ops : List Text} {s t : State} :
    execAdd ops s = .next t ↔ ∃ rd rs rt d a b, ops = [rd, rs, rt] ∧ parseReg s.block.regNames rd = some d ∧
      parseReg s.block.regNames rs = some a ∧ parseReg s.block.regNames rt = some b ∧
      t = s.writeReg d (s.readReg a + s.readReg b) := by
  unfold execAdd
  rw [settle_next_iff]
  split
  · simp only [bind_ok_iff, State.regOperand, orInvalid_ok_iff]
    simp [eq_comm]
  · rename_i h; simp only [wrongCount, reduceCtorEq, false_iff]; rintro ⟨rd, rs, rt, d, a, b, rfl, -⟩; exact h _ _ _ rfl

theorem execAddi_next_iff {ops : List Text} {s t : State} :
    execAddi ops s = .next t ↔ ∃ rd rs imm d a m, ops = [rd, rs, imm] ∧ parseReg s.block.regNames rd = some d ∧
      parseReg s.block.regNames rs = some a ∧ parseInt imm = some m ∧ t = s.writeReg d (s.readReg a + m) := by
  unfold execAddi
  rw [settle_next_iff]
  split
  · simp only [bind_ok_iff, State.regOperand, intOperand, orInvalid_ok_iff]
    simp [eq_comm]
  · rename_i h; simp only [wrongCount, reduceCtorEq, false_iff]; rintro ⟨rd, rs, rt, d, a, b, rfl, -⟩; exact h _ _ _ rfl

theorem State.target_ok_iff {s : State} {name : Text} {a : Nat} :
    s.target name = .ok a ↔ ∃ k, lookupKey name s.labels = some k ∧ a = 4 * k := by
  rw [State.target_eq]
  cases lookupKey name s.labels <;> simp [eq_comm]

theorem execJ_next_iff {ops : List Text} {s t : State} :
    execJ ops s = .next t ↔ ∃ label k, ops = [label] ∧ lookupKey label s.labels = some k ∧ t = s.setPc (4 * k) := by
  unfold execJ
  rw [settle_next_iff]
  split
  · simp only [bind_ok_iff, State.target_ok_iff]
    constructor
    · rintro ⟨_, ⟨k, hk, rfl⟩, h⟩; exact ⟨_, k, rfl, hk, by simpa [eq_comm] using h⟩
    · rintro ⟨l, k, h, hk, rfl⟩; cases h; exact ⟨_, ⟨k, hk, rfl⟩, rfl⟩
  · rename_i h; simp only [wrongCount, reduceCtorEq, false_iff]; rintro ⟨l, k, rfl, -⟩; exact h _ rfl

theorem execBeq_next_iff {ops : List Text} {s t : State} :
    execBeq ops s = .next t ↔ ∃ rs rt label a b, ops = [rs, rt, label] ∧ parseReg s.block.regNames rs = some a ∧
      parseReg s.block.regNames rt = some b ∧
      ((s.readReg a = s.readReg b ∧ ∃ k, lookupKey label s.labels = some k ∧ t = s.setPc (4 * k)) ∨
       (s.readReg a ≠ s.readReg b ∧ t = s)) := by
  unfold execBeq
  rw [settle_next_iff]
  split
  · rename_i rs rt label
    simp only [bind_ok_iff, State.regOperand, orInvalid_ok_iff, State.regsEqual, decide_eq_true_eq]
    constructor
    · rintro ⟨a, ha, b, hb, h⟩
      refine ⟨rs, rt, label, a, b, rfl, ha, hb, ?_⟩
      split at h
      · rename_i he
        obtain ⟨_, ht, h⟩ := bind_ok_iff.mp h
        obtain ⟨k, hk, rfl⟩ := State.target_ok_iff.mp ht
        exact .inl ⟨he, k, hk, by simpa [eq_comm] using h⟩
      · rename_i he; exact .inr ⟨he, by simpa [eq_comm] using h⟩
    · rintro ⟨rs', rt', l', a, b, h0, ha, hb, h⟩
      cases h0
      refine ⟨a, ha, b, hb, ?_⟩
      rcases h with ⟨he, k, hk, rfl⟩ | ⟨he, rfl⟩
      · rw [if_pos he]; exact bind_ok_iff.mpr ⟨_, State.target_ok_iff.mpr ⟨k, hk, rfl⟩, rfl⟩
      · rw [if_neg he]
  · rename_i h; simp only [wrongCount, reduceCtorEq, false_iff]; rintro ⟨rd, rs, rt, a, b, rfl, -⟩; exact h _ _ _ rfl

theorem execSw_next_iff {ops : List Text} {s t : State} :
    execSw ops s = .next t ↔ ∃ rt m r ref, ops = [rt, m] ∧ parseReg s.block.regNames rt = some r ∧
      parseMemref s.block.regNames m = some ref ∧
      s.memWrite (s.effectiveAddress ref) .word (s.readReg r) = .ok t := by
  unfold execSw
  rw [settle_next_iff]
  split
  · simp only [bind_ok_iff, State.regOperand, State.memrefOperand, orInvalid_ok_iff]
    simp
  · rename_i h; simp only [wrongCount, reduceCtorEq, false_iff]; rintro ⟨rt, m, r, ref, rfl, -⟩; exact h _ _ rfl

theorem execSb_next_iff {ops : List Text} {s t : State} :
    execSb ops s = .next t ↔ ∃ rt m r ref, ops = [rt, m] ∧ parseReg s.block.regNames rt = some r ∧
      parseMemref s.block.regNames m = some ref ∧
      s.memWrite (s.effectiveAddress ref) .byte (u32 (s.readReg r) % 256) = .ok t := by
  unfold execSb
  rw [settle_next_iff]
  split
  · simp only [bind_ok_iff, State.regOperand, State.memrefOperand, orInvalid_ok_iff]
    simp
  · rename_i h; simp only [wrongCount, reduceCtorEq, false_iff]; rintro ⟨rt, m, r, ref, rfl, -⟩; exact h _ _ rfl

theorem timedNoOp_eq (s : State) : timedNoOp s = .next s := rfl

end Sys2Proof.Machine
end

