-- ==== Sys2Proof/Laws/Text.lean ====
section
/-! SUPPORT. Splitting a text at whitespace, and texts given by characters. -/

namespace Sys2Proof

/-! Texts given by characters. -/

@[simp] theorem cp_inj {a b : Char} : cp a = cp b ↔ a = b :=
  ⟨fun h => Char.ext (UInt32.toNat_inj.mp (Fin.mk.inj h)), fun h => by rw [h]⟩

@[simp] theorem cp_val (c : Char) : (cp c).val = c.toNat := rfl

@[simp] theorem chars_nil : chars [] = [] := rfl

theorem chars_cons (c : Char) (cs : List Char) : chars (c :: cs) = cp c :: chars cs := rfl

/-- Different characters are different texts. -/
@[simp] theorem chars_inj {a b : List Char} : chars a = chars b ↔ a = b := by
  unfold chars
  exact (List.map_injective_iff.mpr fun _ _ => cp_inj.mp).eq_iff

/-- What `utf8` answers (spec R223): nothing on a surrogate, else the bytes. -/
theorem utf8_some_iff {t : Text} {bs : List Byte} : utf8 t = some bs ↔ (∀ c ∈ t, isSurrogate c = false) ∧ textBytes t = bs := by
  unfold utf8
  split
  · rename_i h
    obtain ⟨c, hc, hs⟩ := List.any_eq_true.mp h
    exact ⟨nofun, fun g => by simp [g.1 c hc] at hs⟩
  · rename_i h
    simp only [List.any_eq_true, not_exists, not_and, Bool.not_eq_true] at h
    simp only [Option.some.injEq]
    exact ⟨fun g => ⟨h, g⟩, fun g => g.2⟩


/-- Code points that are no whitespace lengthen the token being built. -/
theorem foldr_splitStep_token {t : Text} (h : ∀ c ∈ t, isWs c = false) (acc : Text × List Text) :
    t.foldr splitStep acc = (t ++ acc.1, acc.2) := by
  induction t with
  | nil => rfl
  | cons c cs ih =>
    rw [List.foldr_cons, ih fun d hd => h d (List.mem_cons_of_mem _ hd)]
    simp [splitStep, h c (by simp)]

/-- The tokens already found stay behind those found to their left. -/
theorem foldr_splitStep_tokens (t : Text) (cur : Text) (ts : List Text) :
    t.foldr splitStep (cur, ts) = ((t.foldr splitStep (cur, [])).1, (t.foldr splitStep (cur, [])).2 ++ ts) := by
  induction t with
  | nil => rfl
  | cons c cs ih =>
    rw [List.foldr_cons, List.foldr_cons, ih]
    generalize cs.foldr splitStep (cur, []) = r
    unfold splitStep closeToken
    split
    · dsimp only; split <;> simp
    · rfl

theorem closeToken_append (r : Text × List Text) (ts : List Text) : closeToken (r.1, r.2 ++ ts) = closeToken r ++ ts := by
  unfold closeToken; dsimp only; split <;> simp

@[simp] theorem splitWs_nil : splitWs [] = [] := rfl

/-- A text without whitespace is its one token. -/
theorem splitWs_token {t : Text} (hne : t ≠ []) (h : ∀ c ∈ t, isWs c = false) : splitWs t = [t] := by
  simp [splitWs, foldr_splitStep_token h, closeToken, hne]

/-- Whitespace separates (spec R302). -/
theorem splitWs_append_ws (a b : Text) {c : CodePoint} (h : isWs c = true) : splitWs (a ++ c :: b) = splitWs a ++ splitWs b := by
  have : (a ++ c :: b).foldr splitStep ([], []) = a.foldr splitStep ([], splitWs b) := by
    have hc : splitStep c (b.foldr splitStep ([], [])) = ([], splitWs b) := by simp [splitStep, h, splitWs]
    rw [List.foldr_append, List.foldr_cons, hc]
  rw [splitWs, this, foldr_splitStep_tokens, closeToken_append]
  rfl

theorem isWs_space : isWs (cp ' ') = true := by decide

theorem replaceCommas_append (a b : Text) : replaceCommas (a ++ b) = replaceCommas a ++ replaceCommas b := by
  simp [replaceCommas]

/-- A text without commas is left as it is. -/
theorem replaceCommas_eq {t : Text} (h : ∀ c ∈ t, c ≠ cp ',') : replaceCommas t = t := by
  unfold replaceCommas
  conv_rhs => rw [← List.map_id t]
  exact List.map_congr_left fun c hc => by simp [h c hc]

/-- What a token is (spec R302). -/
theorem isToken_iff {t : Text} : isToken t = true ↔ t ≠ [] ∧ ∀ c ∈ t, isWs c = false ∧ c ≠ cp ',' := by
  simp [isToken, isTokenChar]

/-- A token is its own one token. -/
theorem tokenize_of_isToken {t : Text} (h : isToken t = true) : tokenize t = [t] := by
  obtain ⟨h1, h2⟩ := isToken_iff.mp h
  rw [tokenize, replaceCommas_eq fun c hc => (h2 c hc).2]
  exact splitWs_token h1 fun c hc => (h2 c hc).1

theorem isOtherOp_iff {op : Text} : isOtherOp op = true ↔ isToken op = true ∧ asciiLower op = op ∧ op ∉ namedOps := by
  simp [isOtherOp, and_assoc]

theorem asciiLower_length (t : Text) : (asciiLower t).length = t.length := by simp [asciiLower]

/-- The mnemonic alone selects the constructor (spec R330). -/
theorem Instr.ofOp_other {op : Text} (h : op ∉ namedOps) (ops : List Text) : Instr.ofOp op ops = .other op ops := by
  simp only [namedOps, List.mem_cons, List.not_mem_nil, or_false, not_or] at h
  simp [Instr.ofOp, h]

end Sys2Proof
end

