-- ==== Sys2Proof/Laws/PerInstr.lean ====
section
/-! SUPPORT. Statements for all instructions, one lemma per constructor: facts about an instruction as syntax. -/

namespace Sys2Proof.Laws.OpSelects

/-- The mnemonic of a well-formed instruction selects its constructor and its class (spec R304, R330): no other part of the
line takes part. -/
def Statement (i : Instr) : Prop := i.wf = true → Instr.ofOp i.op i.operands = i ∧ classOf i.op = i.cls

theorem li (ops : List Text) : Statement (.li ops) := fun _ => ⟨rfl, rfl⟩
theorem la (ops : List Text) : Statement (.la ops) := fun _ => ⟨rfl, rfl⟩
theorem add (ops : List Text) : Statement (.add ops) := fun _ => ⟨rfl, rfl⟩
theorem addi (ops : List Text) : Statement (.addi ops) := fun _ => ⟨rfl, rfl⟩
theorem j (ops : List Text) : Statement (.j ops) := fun _ => ⟨rfl, rfl⟩
theorem beq (ops : List Text) : Statement (.beq ops) := fun _ => ⟨rfl, rfl⟩
theorem sw (ops : List Text) : Statement (.sw ops) := fun _ => ⟨rfl, rfl⟩
theorem sb (ops : List Text) : Statement (.sb ops) := fun _ => ⟨rfl, rfl⟩
theorem jal (ops : List Text) : Statement (.jal ops) := fun _ => ⟨rfl, rfl⟩
theorem sub (ops : List Text) : Statement (.sub ops) := fun _ => ⟨rfl, rfl⟩
theorem and (ops : List Text) : Statement (.and ops) := fun _ => ⟨rfl, rfl⟩
theorem or (ops : List Text) : Statement (.or ops) := fun _ => ⟨rfl, rfl⟩
theorem other (op : Text) (ops : List Text) : Statement (.other op ops) := by
  intro h
  have hop : op ∉ namedOps := (isOtherOp_iff.mp (Bool.and_eq_true_iff.mp h).1).2.2
  refine ⟨Instr.ofOp_other hop ops, ?_⟩
  simp only [namedOps, List.mem_cons, List.not_mem_nil, or_false, not_or] at hop
  simp [Instr.op, Instr.cls, classOf, hop]

end Sys2Proof.Laws.OpSelects
end

