-- ==== Sys2Proof/Laws/Step.lean ====
section
/-! SUPPORT. What an instruction and a step can do, said once: provers cite these and do not unfold `exec` or `stepReport`. -/

namespace Sys2Proof.Machine

/-- An instruction answers a next state or raises an error, nothing else. -/
theorem exec_cases (i : Instr) (s : State) : (∃ t, exec i s = .next t) ∨ (∃ e, exec i s = .fault (.raise e)) := by
  have key : ∀ x : Except Error State, (∃ t, settle x = .next t) ∨ (∃ e, settle x = .fault (.raise e)) := by
    intro x; cases x <;> simp [settle]
  cases i with
  | jal ops => exact .inl ⟨s, rfl⟩
  | sub ops => exact .inl ⟨s, rfl⟩
  | and ops => exact .inl ⟨s, rfl⟩
  | or ops => exact .inl ⟨s, rfl⟩
  | other op ops => exact .inl ⟨s, rfl⟩
  | _ => exact key _

theorem exec_ne_refused (i : Instr) (s : State) (r : Refusal) : exec i s ≠ .refused r := by
  rcases exec_cases i s with ⟨t, h⟩ | ⟨e, h⟩ <;> simp [h]

theorem exec_fault_eq {i : Instr} {s : State} {f : Fault} (h : exec i s = .fault f) : ∃ e, f = .raise e := by
  rcases exec_cases i s with ⟨t, h'⟩ | ⟨e, h'⟩
  · simp [h'] at h
  · exact ⟨e, by rw [h'] at h; exact (Host.Outcome.fault.inj h).symm⟩

/-- What an instruction that goes on does to the state: a register write, a `pc` write, an integer store, or nothing. -/
theorem exec_next_cases {i : Instr} {s t : State} (h : exec i s = .next t) :
    (∃ d v, t = s.writeReg d v) ∨ (∃ name k, lookupKey name s.labels = some k ∧ t = s.setPc (4 * k)) ∨
    (∃ a n v, s.memWrite a n v = .ok t) ∨ t = s := by
  cases i with
  | li ops => obtain ⟨_, _, d, v, -, -, -, rfl⟩ := execLi_next_iff.mp h; exact .inl ⟨d, v, rfl⟩
  | la ops => obtain ⟨_, _, d, v, -, -, -, rfl⟩ := execLa_next_iff.mp h; exact .inl ⟨d, v, rfl⟩
  | add ops => obtain ⟨_, _, _, d, a, b, -, -, -, -, rfl⟩ := execAdd_next_iff.mp h; exact .inl ⟨d, _, rfl⟩
  | addi ops => obtain ⟨_, _, _, d, a, m, -, -, -, -, rfl⟩ := execAddi_next_iff.mp h; exact .inl ⟨d, _, rfl⟩
  | j ops => obtain ⟨l, k, -, hk, rfl⟩ := execJ_next_iff.mp h; exact .inr (.inl ⟨l, k, hk, rfl⟩)
  | beq ops =>
    obtain ⟨_, _, l, a, b, -, -, -, h⟩ := execBeq_next_iff.mp h
    rcases h with ⟨-, k, hk, rfl⟩ | ⟨-, rfl⟩
    · exact .inr (.inl ⟨l, k, hk, rfl⟩)
    · exact .inr (.inr (.inr rfl))
  | sw ops => obtain ⟨_, _, r, ref, -, -, -, h⟩ := execSw_next_iff.mp h; exact .inr (.inr (.inl ⟨_, _, _, h⟩))
  | sb ops => obtain ⟨_, _, r, ref, -, -, -, h⟩ := execSb_next_iff.mp h; exact .inr (.inr (.inl ⟨_, _, _, h⟩))
  | jal ops => exact .inr (.inr (.inr (Host.Outcome.next.inj h).symm))
  | sub ops => exact .inr (.inr (.inr (Host.Outcome.next.inj h).symm))
  | and ops => exact .inr (.inr (.inr (Host.Outcome.next.inj h).symm))
  | or ops => exact .inr (.inr (.inr (Host.Outcome.next.inj h).symm))
  | other op ops => exact .inr (.inr (.inr (Host.Outcome.next.inj h).symm))

/-! Reports of STEP. -/

theorem stepReport_faulted {s : State} {e : Error} {i : Nat} {x : Text} (h : s.status = .faulted e i x) :
    stepReport s = .fault e i x s := by
  unfold stepReport; rw [h]

/-- STEP where the status is not Faulted: it fetches. -/
theorem stepReport_of_fetch {s : State} (h : ∀ e i x, s.status ≠ .faulted e i x) :
    stepReport s = match s.fetch (s.pc / 4) with
      | none => stepAtEnd s
      | some e => executeEntry s (s.pc / 4) e := by
  unfold stepReport
  split
  · rename_i e i x hs; exact absurd hs (h e i x)
  · rfl

/-- STEP executes an instruction exactly so (spec R410). -/
theorem stepReport_stepped_iff {s t : State} :
    stepReport s = .stepped t ↔ (∀ e i x, s.status ≠ .faulted e i x) ∧
      ∃ e u, s.fetch (s.pc / 4) = some e ∧ exec e.instr (s.tick e.cls) = .next u ∧ t = u.setLast (s.pc / 4) := by
  by_cases hs : ∃ e i x, s.status = .faulted e i x
  · obtain ⟨e, i, x, hs⟩ := hs
    rw [stepReport_faulted hs]
    exact ⟨fun h => (nomatch h), fun h => absurd hs (h.1 e i x)⟩
  · have hs' : ∀ e i x, s.status ≠ .faulted e i x := fun e i x h => hs ⟨e, i, x, h⟩
    rw [stepReport_of_fetch hs']
    cases hf : s.fetch (s.pc / 4) with
    | none =>
      simp only [stepAtEnd]
      constructor
      · intro h; split at h <;> exact (nomatch h)
      · rintro ⟨-, e, u, h, -⟩; exact (nomatch h)
    | some e =>
      simp only [executeEntry]
      rcases exec_cases e.instr (s.tick e.cls) with ⟨u, hu⟩ | ⟨err, he⟩
      · rw [hu]
        constructor
        · intro h; exact ⟨hs', e, u, rfl, hu, (StepReport.stepped.inj h).symm⟩
        · rintro ⟨-, e', u', h1, h2, rfl⟩
          obtain rfl := Option.some.inj h1
          rw [hu] at h2; rw [Host.Outcome.next.inj h2]
      · rw [he]
        constructor
        · intro h; exact (nomatch h)
        · rintro ⟨-, e', u', h1, h2, -⟩
          obtain rfl := Option.some.inj h1
          rw [he] at h2; exact (nomatch h2)

/-- STEP halts exactly so (spec R411). -/
theorem stepReport_noStep_iff {s t : State} :
    stepReport s = .noStep t ↔ (∀ e i x, s.status ≠ .faulted e i x) ∧ s.fetch (s.pc / 4) = none ∧ s.prog ≠ [] ∧
      t = s.enterHalt := by
  by_cases hs : ∃ e i x, s.status = .faulted e i x
  · obtain ⟨e, i, x, hs⟩ := hs
    rw [stepReport_faulted hs]
    exact ⟨fun h => (nomatch h), fun h => absurd hs (h.1 e i x)⟩
  · have hs' : ∀ e i x, s.status ≠ .faulted e i x := fun e i x h => hs ⟨e, i, x, h⟩
    rw [stepReport_of_fetch hs']
    cases hf : s.fetch (s.pc / 4) with
    | none =>
      simp only [stepAtEnd]
      by_cases hp : s.prog = []
      · rw [if_pos hp]
        exact ⟨fun h => (nomatch h), fun h => absurd hp h.2.2.1⟩
      · rw [if_neg hp]
        exact ⟨fun h => ⟨hs', trivial, hp, (StepReport.noStep.inj h).symm⟩, fun h => by rw [h.2.2.2]⟩
    | some e =>
      simp only [executeEntry]
      rcases exec_cases e.instr (s.tick e.cls) with ⟨u, hu⟩ | ⟨err, he⟩
      · rw [hu]; exact ⟨fun h => (nomatch h), fun h => (nomatch h.2.1)⟩
      · rw [he]; exact ⟨fun h => (nomatch h), fun h => (nomatch h.2.1)⟩

/-- STEP faults exactly so: it was Faulted already (spec R415), or the instruction raises (R410, R610). -/
theorem stepReport_fault_iff {s t : State} {err : Error} {i : Nat} {x : Text} :
    stepReport s = .fault err i x t ↔
      (s.status = .faulted err i x ∧ t = s) ∨
      ((∀ e i x, s.status ≠ .faulted e i x) ∧ i = s.pc / 4 ∧ ∃ e, s.fetch (s.pc / 4) = some e ∧ x = e.text ∧
        exec e.instr (s.tick e.cls) = .fault (.raise err) ∧ t = s.enterFault err i x) := by
  by_cases hs : ∃ e i x, s.status = .faulted e i x
  · obtain ⟨e', i', x', hs⟩ := hs
    rw [stepReport_faulted hs]
    constructor
    · intro h; injection h with h1 h2 h3 h4; subst h1 h2 h3 h4; exact .inl ⟨hs, rfl⟩
    · rintro (⟨h, rfl⟩ | ⟨h, -⟩)
      · rw [hs] at h; injection h with h1 h2 h3; rw [h1, h2, h3]
      · exact absurd hs (h _ _ _)
  · have hs' : ∀ e i x, s.status ≠ .faulted e i x := fun e i x h => hs ⟨e, i, x, h⟩
    rw [stepReport_of_fetch hs']
    cases hf : s.fetch (s.pc / 4) with
    | none =>
      simp only [stepAtEnd]
      constructor
      · intro h; split at h <;> exact (nomatch h)
      · rintro (⟨h, -⟩ | ⟨-, -, e, h, -⟩)
        · exact absurd h (hs' _ _ _)
        · exact (nomatch h)
    | some e =>
      simp only [executeEntry]
      rcases exec_cases e.instr (s.tick e.cls) with ⟨u, hu⟩ | ⟨err', he⟩
      · rw [hu]
        constructor
        · intro h; exact (nomatch h)
        · rintro (⟨h, -⟩ | ⟨-, -, e', h1, -, h2, -⟩)
          · exact absurd h (hs' _ _ _)
          · obtain rfl := Option.some.inj h1; rw [hu] at h2; exact (nomatch h2)
      · rw [he]
        constructor
        · intro h; injection h with h1 h2 h3 h4; subst h1 h2 h3 h4
          exact .inr ⟨hs', rfl, e, rfl, rfl, he, rfl⟩
        · rintro (⟨h, -⟩ | ⟨-, rfl, e', h1, rfl, h2, rfl⟩)
          · exact absurd h (hs' _ _ _)
          · obtain rfl := Option.some.inj h1
            rw [he] at h2; injection h2 with h2; injection h2 with h2; rw [h2]

/-- The next state of a step is one STEP reports as stepped or as halted (spec R404). -/
theorem step_next_iff {s t : State} : step s = .next t ↔ stepReport s = .stepped t ∨ stepReport s = .noStep t := by
  unfold step runStep
  cases stepReport s <;> simp [StepReport.outcome]

theorem step_fault_iff {s : State} {f : Fault} :
    step s = .fault f ↔ ∃ err i x t, stepReport s = .fault err i x t ∧ f = .ended err i x t := by
  unfold step runStep
  cases stepReport s <;> simp [StepReport.outcome, eq_comm]

end Sys2Proof.Machine
end

