-- ==== Sys2Proof/Laws/Run.lean ====
section
/-! SUPPORT. Runs of the machine, one step at a time, and what every instruction leaves alone. -/

namespace Sys2Proof.Machine

theorem core_run_succ_next_iff (M : Host.Core) (n : Nat) (s t : M.State) :
    M.run (n + 1) s = .next t ↔ ∃ u, M.step s = .next u ∧ M.run n u = .next t := by
  rw [Host.Core.run]
  cases M.step s <;> simp

/-- A run of `n + 1` steps that goes on is a step and a run of `n`. -/
theorem run_succ_next_iff {n : Nat} {s t : State} :
    Host.Core.run Sys2Proof.core (n + 1) s = .next t ↔
      ∃ u, step s = .next u ∧ Host.Core.run Sys2Proof.core n u = .next t :=
  core_run_succ_next_iff Sys2Proof.core n s t

/-- No instruction writes the status, the counters, `last`, the program or the parameters (spec R410, R208). -/
theorem exec_next_rest {i : Instr} {s t : State} (h : exec i s = .next t) :
    t.status = s.status ∧ t.cycles = s.cycles ∧ t.weighted = s.weighted ∧ t.last = s.last ∧ t.prog = s.prog ∧
      t.labels = s.labels ∧ t.block = s.block ∧ t.config = s.config := by
  rcases exec_next_cases h with ⟨d, v, rfl⟩ | ⟨n, k, -, rfl⟩ | ⟨a, n, v, h⟩ | rfl
  · simp
  · simp
  · obtain ⟨-, -, rfl⟩ := State.memWrite_ok_iff.mp h; simp
  · simp

end Sys2Proof.Machine
end

