-- ==== Sys2Proof/Tests/Slice0.lean ====
section
/-! SUPPORT. Tests: ill-formed instructions refused, lines of the spec decoded, one step per instruction with the results
of the rules' own examples (spec 41 to 45, 95), and for every statement with hypotheses a state or operands that meet them. -/

namespace Sys2Proof.Tests

open Sys2Proof Sys2Proof.Machine

/-! ## Well-formedness: each check refuses a term. -/

theorem test_wf_empty_token : (Instr.li [[]]).wf = false := by decide
theorem test_wf_space_in_token : (Instr.la [text "$t0", text "a b"]).wf = false := by decide
theorem test_wf_comma_in_token : (Instr.add [text "$t0,"]).wf = false := by decide
theorem test_wf_tab_in_token : (Instr.addi [[9]]).wf = false := by decide
theorem test_wf_j : (Instr.j [text " x"]).wf = false := by decide
theorem test_wf_beq : (Instr.beq [text "a", []]).wf = false := by decide
theorem test_wf_sw : (Instr.sw [text "$t0", text "4 ($sp)"]).wf = false := by decide
theorem test_wf_sb : (Instr.sb [text ","]).wf = false := by decide
theorem test_wf_jal : (Instr.jal [[10]]).wf = false := by decide
theorem test_wf_sub : (Instr.sub [[]]).wf = false := by decide
theorem test_wf_and : (Instr.and [text "x "]).wf = false := by decide
theorem test_wf_or : (Instr.or [[], []]).wf = false := by decide
theorem test_wf_other_capital : (Instr.other (text "Nop") []).wf = false := by decide
theorem test_wf_other_named : (Instr.other (text "add") []).wf = false := by decide
theorem test_wf_other_no_token : (Instr.other (text "a b") []).wf = false := by decide
theorem test_wf_other_empty : (Instr.other [] []).wf = false := by decide
theorem test_wf_other_operand : (Instr.other (text "nop") [[]]).wf = false := by decide
theorem test_wf_accepts : (Instr.other (text "loop:") [text "add", text "$t0"]).wf = true := by decide

/-! ## Decoding: every constructor, from a line written by hand. -/

theorem test_decode_li : decodeLine (text "Li $t0, 10") = some (.li [text "$t0", text "10"]) := by decide
theorem test_decode_la : decodeLine (text "la $t0,data") = some (.la [text "$t0", text "data"]) := by decide
theorem test_decode_add :
    decodeLine (text "ADD $t2 , $t0 ,$t1") = some (.add [text "$t2", text "$t0", text "$t1"]) := by decide
theorem test_decode_addi :
    decodeLine (text "addi $t1, $t0, -7") = some (.addi [text "$t1", text "$t0", text "-7"]) := by decide
theorem test_decode_j : decodeLine (text "j end") = some (.j [text "end"]) := by decide
theorem test_decode_beq :
    decodeLine (text "beq $t0 $t1 L") = some (.beq [text "$t0", text "$t1", text "L"]) := by decide
theorem test_decode_sw :
    decodeLine (text "sw $t0, -4($sp)") = some (.sw [text "$t0", text "-4($sp)"]) := by decide
theorem test_decode_sb :
    decodeLine (text "sb $t1, 0($zero)") = some (.sb [text "$t1", text "0($zero)"]) := by decide
theorem test_decode_jal : decodeLine (text "JAL f") = some (.jal [text "f"]) := by decide
theorem test_decode_sub :
    decodeLine (text "sub $t0,,$t1") = some (.sub [text "$t0", text "$t1"]) := by decide
theorem test_decode_and : decodeLine (text "and") = some (.and []) := by decide
theorem test_decode_or : decodeLine (text " or x") = some (.or [text "x"]) := by decide
theorem test_decode_other : decodeLine (text "lw $t0, 0($sp)") = some (.other (text "lw") [text "$t0", text "0($sp)"]) := by
  decide
theorem test_decode_no_token : decodeLine (text " , ") = none := by decide

/-! Words: the bytes of the text, the first the least significant (`l` is 0x6C, `i` 0x69, `$` 0x24, space 0x20). -/

theorem test_word_li : decodeTableWord 16 0x696C = some (.li []) := by decide
theorem test_word_sub_padded : decodeTableWord 64 0x627573 = some (.sub []) := by decide
theorem test_word_j : decodeTableWord 24 0x61206A = some (.j [text "a"]) := by decide
theorem test_word_no_utf8 : decodeTableWord 16 0xFFFF = none := by decide

/-! ## One step per instruction. -/

/-- A block of 64 bytes. -/
def block (o : StoreOverflow) : Block := { memSize := 64, overflow := o, regNames := Config.regNames }

/-- Weights 3, 2 and 5 at 1000 Hz. -/
def config : RunConfig := { freqHz := 1000, weightR := 3, weightI := 2, weightJ := 5 }

/-- The entry of a line, or of `nop`. -/
def entry (line : Text) : Entry := (entryOf line).getD { text := line, op := [], operands := [], cls := .i }

/-- A state about to run one line at index 0 of a program of three, with `end` bound to 3: `$t0` is 5, `$t1` is 0x12345678,
`$t2` is -1, `$sp` is 16. -/
def small (o : StoreOverflow) (line : Text) : State :=
  (((((State.loaded (block o) config [entry line, entry (text "nop"), entry (text "nop")] [(text "end", 3)]).writeReg 8 5
    ).writeReg 9 0x12345678).writeReg 10 (-1)).writeReg 29 16)

/-- What a step leaves, where it goes on. -/
def after {α : Type} (f : State → α) (a : Answer) : Option α :=
  match a with
  | .next t => some (f t)
  | _ => none

/-- The error a step ends with, and its index. -/
def endedWith (a : Answer) : Option (Error × Nat) :=
  match a with
  | .fault (.ended e i _ _) => some (e, i)
  | _ => none

/-- The error an instruction raises. -/
def raised (a : Answer) : Option Error :=
  match a with
  | .fault (.raise e) => some e
  | _ => none

/-- One step of a line. -/
def run1 (line : String) : Answer := step (small .truncate (text line))

/-- One step of a line where a store that does not fit faults. -/
def run1Fault (line : String) : Answer := step (small .fault (text line))

/-- R421: a value outside `Int32` wraps; a character literal is its code point. -/
theorem test_li_wraps : after (fun t => t.readReg 11) (run1 "li $t3, 0xFFFFFFFF") = some (-1) := by decide
theorem test_li_char : after (fun t => (t.readReg 9, t.recency)) (run1 "li $t1, 'A'") = some (65, [8, 10, 29, 9]) := by decide

/-- R426, V4: a label is its program address; a number is itself. -/
theorem test_la_label : after (fun t => t.readReg 8) (run1 "la $t0, end") = some 12 := by decide
theorem test_la_undefined : endedWith (run1 "la $t0, 'a'") = some (.undefinedLabel (text "'a'"), 0) := by decide

/-- R441: the sum wraps; a source may be the destination. -/
theorem test_add_sources : after (fun t => (t.readReg 10, t.pc)) (run1 "add $t2, $t2, $t2") = some (-2, 4) := by decide
theorem test_add_class : after (fun t => (t.cycles, t.weighted)) (run1 "add $zero, $t2, $t2") = some (1, 3) := by decide

/-- R446: the worked example; the immediate is no character literal. -/
theorem test_addi_example : after (fun t => t.readReg 9) (run1 "addi $t1, $t0, -7") = some (-2) := by decide
theorem test_addi_char : endedWith (run1 "addi $t1, $t0, 'A'") = some (.invalidOperand (text "'A'"), 0) := by decide

/-- R461: the worked example; `j` has class J. -/
theorem test_j_example : after (fun t => (t.pc, t.weighted, t.last)) (run1 "j end") = some (12, 5, some 0) := by decide
theorem test_j_number : endedWith (run1 "j 8") = some (.undefinedLabel (text "8"), 0) := by decide

/-- R462: taken; not taken with an undefined label, which raises nothing. -/
theorem test_beq_taken : after (fun t => (t.pc, t.weighted)) (run1 "beq $t0, $t0, end") = some (12, 2) := by decide
theorem test_beq_not_taken : after (fun t => t.pc) (run1 "beq $t0, $t1, nowhere") = some 4 := by decide

/-- R481: the worked example; one past the highest address. -/
theorem test_sw_example :
    after (fun t => (t.mem.cells, t.mem.tags)) (run1 "sw $t1, -4($sp)") =
      some ([(12, 0x78#8), (13, 0x56#8), (14, 0x34#8), (15, 0x12#8)], [(12, .int .word)]) := by decide
theorem test_sw_bounds : endedWith (run1 "sw $t0, 61($zero)") = some (.outOfBounds 61 .word, 0) := by decide

/-- R486: -1 stores 0xFF under Truncate and raises under Fault. -/
theorem test_sb_truncate : after (fun t => (t.mem.cells, t.mem.tags)) (run1 "sb $t2, 63($zero)") =
    some ([(63, 0xFF#8)], [(63, .int .byte)]) := by decide
theorem test_sb_fault : endedWith (run1Fault "sb $t2, 63($zero)") = some (.sizeMismatch 63 .byte 255, 0) := by decide

/-- R501: no register is written, the class's weight is added. -/
theorem test_jal : after (fun t => (t.readReg 31, t.pc, t.weighted)) (run1 "jal end") = some (0, 4, 5) := by decide
theorem test_sub : after (fun t => (t.readReg 8, t.cycles, t.weighted)) (run1 "sub $t0, $t1, $t2") = some (5, 1, 3) := by decide
theorem test_and : after (fun t => (t.readReg 8, t.weighted)) (run1 "and $t0, $t1") = some (5, 3) := by decide
theorem test_or : after (fun t => (t.readReg 8, t.weighted)) (run1 "or $nosuch") = some (5, 3) := by decide

/-- R502: the worked example. -/
theorem test_other : after (fun t => (t.readReg 8, t.cycles, t.weighted)) (run1 "lw $t0, 0($sp)") = some (5, 1, 2) := by decide

/-- A small state with this data store. -/
def calmWith (m : Memory) : State := { small .truncate [] with mem := m }

/-! ## Code points (R18, R322): the surrogates 0xD800 and 0xDFFF are code points too. -/

theorem test_surrogate_literal :
    decodeLine (text "li $t0, '" ++ 0xD800 :: text "'") = some (.li [text "$t0", [cp '\'', 0xD800, cp '\'']]) ∧
      parseImm [cp '\'', 0xDFFF, cp '\''] = some 0xDFFF ∧ parseImm [cp '\'', 0x10FFFF, cp '\''] = some 0x10FFFF := by
  decide

theorem test_surrogate_label :
    (loadLines [] [] [[0xD800, cp ':'], text "nop"]).toOption.map Prod.snd = some [([0xD800], 0)] ∧
      (calmWith (Memory.mk [] [])).memWriteText 0 .word [0xD800] = .error (.textSizeMismatch 0 .word [0xD800]) :=
  ⟨by decide, rfl⟩

/-! ## Errors and observations. -/

/-- R601: the codes of the six kinds. -/
theorem test_codes : [Error.undefinedLabel [], .operandCount [] [], .textSizeMismatch 0 .byte [], .outOfBounds 0 .byte,
    .malformedProgram .tooLong none, .invalidConfiguration .weightJ].map (fun e => e.kind.code) = [1, 2, 3, 4, 5, 6] := by
  decide

/-- R486, R228: a stored character code is a Byte row, no String row; 0xFF reads -1. -/
theorem test_data_snapshot : after State.dataSnapshot (run1 "sb $t2, 0($zero)") = some [.number 0 .byte 255 (-1)] := by decide

/-- R228: text tags of one byte make String rows of adjacent runs; a byte overwritten with 0 ends one. -/
theorem test_string_rows :
    (calmWith (((Memory.mk [] []).setByte 4 0x41#8).setTag 4 (.text .byte (chars ['A'])) |>.setTag 5 (.text .byte (chars ['B'])))
      ).dataSnapshot = [.string 4 (chars ['A']), .quoted 5 .byte (chars ['B'])] := by decide

/-- R405: class and text of the instruction executed last. -/
theorem test_last_instruction : after State.lastInstruction (run1 "JAL f") = some (some (.j, text "JAL f")) := by decide

/-- A small state with an empty data store. -/
def calm0 : State := calmWith { cells := [], tags := [] }

/-- R401, D30: before a LOAD an observation is refused; after one a register is observed (R405). -/
theorem test_observe_refused : State.reset.observe (.register 8) = .error .noProgramLoaded := rfl
theorem test_observe_register : calm0.observe (.register 29) = .ok (.register 16) := by
  decide

/-! ## Witnesses: for every statement with hypotheses, a state and operands that meet them, at the ends of their ranges. -/

/-- The small state, its line `nop`. -/
def calm : State := small .truncate (text "nop")

theorem calm_names : NamesDistinct calm.block.regNames := by decide +kernel

theorem calm_regsOk : calm.RegsOk := ⟨by decide, by decide, by decide, by decide⟩

theorem witness_ReadAfterRegisterWrite : (31 : RegIndex) ≠ 0 ∧ (calm.writeReg 31 (2 ^ 31)).readReg 31 = -2147483648 := by
  decide

theorem witness_RegisterWriteEffect : calm.RegsOk ∧ (8 : RegIndex) ≠ 0 ∧ (9 : RegIndex) ≠ 8 ∧ (0 : RegIndex) = 0 :=
  ⟨calm_regsOk, by decide, by decide, rfl⟩

theorem witness_RecencyListStaysBounded : calm.RegsOk ∧ (calm.writeReg 9 0).recency = [8, 10, 29, 9] :=
  ⟨calm_regsOk, by decide⟩

theorem witness_RegisterSnapshotRows :
    (0 < min (Int.toNat 2) calm.recency.length) ∧ (calm.snapshot 2).map (fun r => (r.1, r.2.2)) = [(29, 16), (10, -1)] ∧
      calm.snapshot 0 = [] ∧ calm.snapshot (-1) = [] := by decide

theorem witness_RegisterOperandLookup :
    NamesDistinct calm.block.regNames ∧ calm.block.regNames[(8 : RegIndex)] = text "$t0" ∧
      ∀ i : RegIndex, calm.block.regNames[i] ≠ text "$T0" :=
  ⟨calm_names, by decide, by decide +kernel⟩

theorem intToken_zero : IntToken (chars ['0']) 0 := .unsigned (.zeros (by decide) (by simp [chars]))

theorem intToken_hex : IntToken (chars ['-', '0', 'x', '1', '0']) (-(16 : Nat)) :=
  .minus (.hex (.inl rfl) (.more (n := 1) (d := 0) (t := chars ['1']) (.one (d := 1) ⟨by decide, by decide⟩) ⟨by decide, by decide⟩))

theorem not_intBody_nil (n : Nat) : ¬ IntBody [] n := by
  intro h
  cases h with
  | zeros h _ => exact h rfl

theorem not_intToken_nil (v : Int) : ¬ IntToken [] v := by
  intro h
  cases h with
  | unsigned h => exact not_intBody_nil _ h

theorem witness_IntegerLiteralGrammar :
    IntToken (chars ['0']) 0 ∧ IntToken (chars ['-', '0', 'x', '1', '0']) (-(16 : Nat)) ∧ ∀ v, ¬ IntToken [] v :=
  ⟨intToken_zero, intToken_hex, not_intToken_nil⟩

theorem witness_ImmediateOperand :
    (∀ c : CodePoint, chars ['1', '0'] ≠ [cp '\'', c, cp '\'']) ∧ (immOperand (text "','")).toOption = some 44 ∧
      (immOperand (text "10")).toOption = some 10 :=
  ⟨by simp [chars], by decide, by decide⟩

theorem witness_NumberOrLabelOperand :
    IntToken (chars ['0']) 0 ∧ (∀ v, ¬ IntToken [] v) ∧ lookupKey [] calm.labels = none ∧
      (calm.resolve (text "end")).toOption = some 3 ∧ parseInt (text "end") = none :=
  ⟨intToken_zero, not_intToken_nil, by decide, by decide, by decide⟩

theorem witness_MemoryOperandGrammar :
    NamesDistinct calm.block.regNames ∧ MemrefToken calm.block.regNames (text "0($sp)") 0 29 ∧
      ∀ off base, ¬ MemrefToken calm.block.regNames [] off base :=
  ⟨calm_names, ⟨(chars ['0']), .plain (.zeros (by decide) (by simp [chars])), by decide⟩, fun _ _ h => by
    obtain ⟨o, -, h⟩ := h
    exact absurd (congrArg List.length h) (by simp)⟩

theorem witness_EveryNumberIsWritten :
    NamesDistinct calm.block.regNames ∧ decimalText (-4) = text "-4" ∧ hexText (-16) = text "-0x10" ∧
      memrefText calm.block.regNames (-4) 29 = text "-4($sp)" :=
  ⟨calm_names, by decide, by decide, by decide⟩

theorem witness_LabelResolution :
    (calm.labels.map Prod.fst).Nodup ∧ (text "end", 3) ∈ calm.labels ∧ (text "END") ∉ calm.labels.map Prod.fst := by
  decide

theorem witness_Tokenisation :
    (text "ab") ≠ [] ∧ ((text "ab").all fun c => !isWs c && c != cp ',') = true ∧ isWs 0x0D = true ∧
      isWs 0x08 = false ∧ tokenize (text "a,,b c") = [text "a", text "b", text "c"] := by decide

theorem witness_DecodeRecord :
    tokenize (text ",") = [] ∧ tokenize (text "AzZ[ X") = [text "AzZ[", text "X"] ∧
      asciiLower (text "AzZ[@`") = text "azz[@`" := by decide

theorem witness_DecodeEncodeRoundTrip :
    (Instr.other (text "x") [text "y:"]).wf = true ∧ encode (.other (text "x") [text "y:"]) = text "x y:," ∧
      (Instr.sw [text "$t0", text "4($sp)"]).wf = true := by decide

theorem witness_DecodeIsTotalAndWellFormed :
    tokenize (text "X") ≠ [] ∧ decodeLine (text "X") = some (.other (text "x") []) := by decide

theorem witness_WordOfLineRoundTrip :
    (Instr.li [text "$t0"]).wf = true ∧ (encode (.li [text "$t0"])).getLast? ≠ some (0) ∧
      decodeTableWord 48 (wordOfBytes (textBytes (text "li $t0"))) = some (.li [text "$t0"]) := by decide

/-! What the operands of the instruction rules may be: one that names, one that names nothing, and both counts. -/

theorem witness_operands :
    parseReg calm.block.regNames (text "$t0") = some 8 ∧ parseReg calm.block.regNames (text "$zero") = some 0 ∧
      parseReg calm.block.regNames (text "t0") = none ∧ [text "$t0"].length ≠ 2 ∧ [text "$t0"].length ≠ 3 ∧
      ([] : List Text).length ≠ 1 := by decide

theorem witness_LiRule :
    parseImm (text "'A'") = some 65 ∧ parseImm (text "-0x10") = some (-16) ∧ parseImm (text "'AB'") = none ∧
      raised (exec (.li [text "$t0"]) calm) = some (.operandCount (text "li") [text "$t0"]) := by decide

theorem witness_LaRule :
    parseInt (text "007") = none ∧ parseInt (text "000") = some 0 ∧ lookupKey (text "007") calm.labels = none ∧
      parseInt (text "end") = none ∧ lookupKey (text "end") calm.labels = some 3 := by decide

theorem witness_AddRule :
    after (fun t => t.readReg 8) (exec (.add [text "$t0", text "$t0", text "$t1"]) calm) = some 305419901 ∧
      raised (exec (.add [text "$t0", text "x", text "y"]) calm) = some (.invalidOperand (text "x")) := by decide

theorem witness_AddiRule :
    parseInt (text "+1") = some 1 ∧ parseInt (text "'A'") = none ∧
      after (fun t => t.readReg 0) (exec (.addi [text "$zero", text "$t0", text "1"]) calm) = some 0 := by decide

theorem witness_JRule : lookupKey (text "end") calm.labels = some 3 ∧ lookupKey (text "8") calm.labels = none ∧
    raised (exec (.j []) calm) = some (.operandCount (text "j") []) := by decide

theorem witness_BeqRule : calm.readReg 8 ≠ calm.readReg 9 ∧ calm.readReg 8 = calm.readReg 8 ∧
    lookupKey (text "end") calm.labels = some 3 ∧ lookupKey (text "x") calm.labels = none := by decide

/-- The highest legal address `MEM_SIZE - 4` and `MEM_SIZE - 3`, and the lowest and -1. -/
theorem witness_SwRule :
    parseMemref calm.block.regNames (text "60($zero)") = some (60, 0) ∧
      parseMemref calm.block.regNames (text "61($zero)") = some (61, 0) ∧
      parseMemref calm.block.regNames (text "-16($sp)") = some (-16, 29) ∧
      parseMemref calm.block.regNames (text "-17($sp)") = some (-17, 29) ∧
      parseMemref calm.block.regNames (text "+4($sp)") = none ∧
      (calm.block.memSize : Int) = 64 ∧ calm.readReg 29 + -16 = 0 ∧ calm.readReg 29 + -17 = -1 := by decide

/-- The values 127 and 128 at the bound of the signed byte, under both values of the parameter. -/
theorem witness_SbRule :
    parseMemref calm.block.regNames (text "63($zero)") = some (63, 0) ∧
      (calm.writeReg 8 127).readReg 8 % 2 ^ 32 % 256 = 127 ∧ (calm.writeReg 8 128).readReg 8 % 2 ^ 32 % 256 = 128 ∧
      (small .fault []).block.overflow = .fault ∧ calm.block.overflow = .truncate ∧
      raised (exec (.sb [text "$t0", text "64($zero)"]) calm) = some (.outOfBounds 64 .byte) := by decide

theorem witness_UnknownMnemonicRule :
    tokenize (text "NOP x") = [text "NOP", text "x"] ∧ asciiLower (text "NOP") ∉ namedOps := by decide

/-! Frames: each form goes on. -/

theorem witness_RegisterInstructionFrame :
    after State.pc (exec (.li [text "$t0", text "1"]) calm) = some 0 ∧
      after State.pc (exec (.la [text "$t0", text "1"]) calm) = some 0 ∧
      after State.pc (exec (.add [text "$t0", text "$t0", text "$t0"]) calm) = some 0 ∧
      after State.pc (exec (.addi [text "$zero", text "$t0", text "1"]) calm) = some 0 := by decide

theorem witness_ControlTransferFrame :
    after State.pc (exec (.j [text "end"]) calm) = some 12 ∧
      after State.pc (exec (.beq [text "$t0", text "$t1", text "x"]) calm) = some 0 := by decide

theorem witness_StoreFrame :
    after (fun t => t.mem.tag 60) (exec (.sw [text "$t0", text "60($zero)"]) calm) = some (some (.int .word)) ∧
      after (fun t => t.mem.tag 0) (exec (.sb [text "$t0", text "-16($sp)"]) calm) = some (some (.int .byte)) := by
  decide

theorem witness_WhichInstructionRaisesWhat :
    raised (exec (.j [text "x"]) calm) = some (.undefinedLabel (text "x")) ∧
      raised (exec (.li [text "x", text "1"]) calm) = some (.invalidOperand (text "x")) ∧
      raised (exec (.sb [text "$t2", text "0($sp)"]) (small .fault [])) = some (.sizeMismatch 16 .byte 255) ∧
      raised (exec (.sw [text "$t0", text "-17($sp)"]) calm) = some (.outOfBounds (-1) .word) := by decide

/-! Steps. -/

theorem witness_StepRunsDecodedInstruction :
    calm.notFaulted = true ∧ calm.fetch (calm.pc / 4) = some (entry (text "nop")) ∧
      entryOf (text "nop") = some (entry (text "nop")) ∧ decodeLine (text "nop") = some (.other (text "nop") []) ∧
      after State.pc (exec (.other (text "nop") []) (calm.tick .i)) = some 4 := by decide

theorem witness_StepRunsDecodedInstruction_raises :
    raised (exec (.j [text "x"]) ((small .truncate (text "j x")).tick .j)) = some (.undefinedLabel (text "x")) ∧
      (small .truncate (text "j x")).fetch 0 = some (entry (text "j x")) ∧
      decodeLine (entry (text "j x")).text = some (.j [text "x"]) := by decide

theorem witness_PlacedWordRunsNext :
    decodeTableWord 24 0x61206A = some (.j [text "a"]) ∧ decodeTableWord 24 0x627573 = some (.sub []) ∧
      after State.pc (step (calm.withFetchWord 24 0x627573)) = some 4 ∧
      endedWith (step (calm.withFetchWord 24 0x61206A)) = some (.undefinedLabel (text "a"), 0) := by decide

/-- The state at the end of the three entries. -/
def atEnd : State := calm.setPc 12

theorem witness_HaltsAtEndOfProgram :
    atEnd.prog ≠ [] ∧ atEnd.notFaulted = true ∧ atEnd.prog.length ≤ atEnd.pc / 4 ∧
      after State.status (step atEnd) = some .halted ∧ ¬ (calm.setPc 8).prog.length ≤ (calm.setPc 8).pc / 4 := by decide

theorem witness_FaultChangesOnlyStatus :
    calm.notFaulted = true ∧ endedWith (step (small .truncate (text "li x 1"))) = some (.invalidOperand (text "x"), 0) := by
  decide

theorem witness_FaultIsSticky :
    (calm.enterFault (.undefinedLabel []) 0 []).status = .faulted (.undefinedLabel []) 0 [] ∧
      endedWith (step (calm.enterFault (.undefinedLabel []) 0 [])) = some (.undefinedLabel [], 0) := by decide

theorem witness_StepAdvancesCounters :
    after State.cycles (step calm) = some 1 ∧ after State.cycles (step atEnd) = some 0 ∧
      endedWith (step (small .truncate (text "j x"))) = some (.undefinedLabel (text "x"), 0) := by decide

theorem witness_ProgramCounterAfterStep :
    calm.pc = 4 * 0 ∧ after State.pc (step calm) = some 4 ∧ (entry (text "j end")).op = text "j" ∧
      (entry (text "beq $t0,$t0,end")).op = text "beq" ∧ calm.readReg 8 ≠ calm.readReg 9 := by decide

theorem witness_StepNeverWritesProgram :
    after (fun t => (t.prog.length, t.labels)) (step calm) = some (3, [(text "end", 3)]) := by decide

/-- A state with text in its data store. -/
def texted : State := { calm with mem := (calm.mem.setByte 0 0x41#8).setTag 0 (.text .byte (chars ['A'])) }

theorem witness_StepWritesNoTextTag : after (fun t => t.mem.tag 0) (step texted) = some (some (.text .byte (chars ['A']))) := by
  decide

theorem calm_inv : calm.Inv where
  regs := calm_regsOk
  mem := ⟨by decide, by decide, by decide⟩
  prog := ⟨by decide, by decide, by decide, by decide⟩
  pc := ⟨by decide, by decide, by decide, by intro i h; exact nomatch h⟩
  params := ⟨by decide, by show (0 : Rat) < 1000; norm_num, calm_names⟩

theorem witness_StepKeepsInvariant : calm.Inv ∧ after State.pc (step calm) = some 4 := ⟨calm_inv, by decide⟩

theorem witness_MemoryFormKept :
    calm.mem.wf ∧ (calm.memWrite 60 .word (-1)).isOk = true ∧ (calm.memWriteText 0 .halfword (text "ab")).isOk = true ∧
      after State.pc (step calm) = some 4 := by decide

/-! LOAD. -/

theorem witness_load_labels : (loadLines [] [] [text "a:", text "nop", text "end :"]).toOption.map Prod.snd =
    some [(text "a", 0), (text "end", 1)] := by decide

/-- A configuration with the default weights. -/
def good : LoadConfig := { freqHz := 1000 }

theorem good_check : checkConfig good = .ok { freqHz := 1000, weightR := 1, weightI := 1, weightJ := 1 } := by
  unfold checkConfig good
  norm_num

theorem loads {ls : List Text} {p : List Entry} {l : List (Text × Nat)} (h : loadLines [] [] ls = .ok (p, l))
    (h1 : p.length ≠ 0) (h2 : p.length < 2 ^ 30) :
    load (block .truncate) ls good =
      .ok (State.loaded (block .truncate) { freqHz := 1000, weightR := 1, weightI := 1, weightJ := 1 } p l) :=
  load_ok_iff.mpr ⟨_, p, l, good_check, h, Nat.pos_of_ne_zero h1, h2, rfl⟩

/-- LOAD of a label and a line. -/
theorem witness_load_ok : ∃ s, load (block .truncate) [text "a:", text "nop"] good = .ok s ∧
    (0 < (block .truncate).memSize ∧ NamesDistinct (block .truncate).regNames) :=
  ⟨_, loads (p := [entry (text "nop")]) (l := [(text "a", 0)]) (by decide) (by decide) (by decide), by decide, calm_names⟩

theorem witness_StateAfterLoad : ∃ s, load (block .truncate) [text "nop"] good = .ok s :=
  ⟨_, loads (p := [entry (text "nop")]) (l := []) (by decide) (by decide) (by decide)⟩

theorem witness_LoadBindsLabels :
    ∃ s, load (block .truncate) [text "nop", text "a:"] good = .ok s ∧ (s.resolve (text "a")).toOption = some 1 ∧
      endsWithColon (text "a:") = true :=
  ⟨_, loads (p := [entry (text "nop")]) (l := [(text "a", 1)]) (by decide) (by decide) (by decide), by decide, by decide⟩

theorem witness_LoadRefusesMalformedPrograms :
    checkConfig good = .ok { freqHz := 1000, weightR := 1, weightI := 1, weightJ := 1 } ∧
      (∃ e, load (block .truncate) [text ":"] good = .error e) :=
  ⟨good_check, .malformedProgram .emptyLabel (some (text ":")), by
    rw [load, good_check]
    rfl⟩

theorem witness_LoadChecksConfigurationFirst : ({ freqHz := 0 } : LoadConfig).freqHz ≤ 0 ∧
    ({ freqHz := 1, weightJ := -1 } : LoadConfig).weightJ < 0 := ⟨le_refl _, by decide⟩

/-- Whether a run goes on, with its `pc`, `cycles` and status. -/
def ran (n : Nat) (s : State) : Option (Nat × Nat × Status) :=
  after (fun t => (t.pc, t.cycles, t.status)) (Host.Core.run Sys2Proof.core n s)

/-- Two instructions, the second a `beq` that is not taken. -/
def straight : State :=
  State.loaded (block .truncate) { freqHz := 1000, weightR := 1, weightI := 1, weightJ := 1 }
    [entry (text "li $t0, 1"), entry (text "beq $t0,$t1,x")] []

theorem straight_loads : load (block .truncate) [text "li $t0, 1", text "beq $t0,$t1,x"] good = .ok straight :=
  loads (by decide) (by decide) (by decide)

/-- Whether the instruction fetched after `k` steps transfers control, and its class. -/
def fetched (k : Nat) (s : State) : Option (Bool × Cls) :=
  (after (fun u => (u.fetch (u.pc / 4)).map fun e => (u.transfers e, e.cls)) (Host.Core.run Sys2Proof.core k s)).bind id

theorem fetched_of {k : Nat} {s u : State} {e : Entry} (h1 : Host.Core.run Sys2Proof.core k s = .next u)
    (h2 : u.fetch (u.pc / 4) = some e) : fetched k s = some (u.transfers e, e.cls) := by
  unfold fetched
  rw [h1]
  simp [after, h2]

theorem witness_StraightLineLaw :
    load (block .truncate) [text "li $t0, 1", text "beq $t0,$t1,x"] good = .ok straight ∧
      (∀ k u e, k < straight.prog.length → Host.Core.run Sys2Proof.core k straight = .next u →
        u.fetch (u.pc / 4) = some e → u.transfers e = false) ∧
      ran straight.prog.length straight = some (8, 2, .running) := by
  refine ⟨straight_loads, fun k u e hk h1 h2 => ?_, by decide⟩
  have h := fetched_of h1 h2
  have hk : k = 0 ∨ k = 1 := by simp [straight] at hk; omega
  rcases hk with rfl | rfl
  · have : fetched 0 straight = some (false, .i) := by decide
    simp_all
  · have : fetched 1 straight = some (false, .i) := by decide
    simp_all

theorem witness_UniformClassTime :
    load (block .truncate) [text "li $t0, 1", text "beq $t0,$t1,x"] good = .ok straight ∧
      (∀ k, k < 2 → ∃ u e, Host.Core.run Sys2Proof.core k straight = .next u ∧ u.fetch (u.pc / 4) = some e ∧ e.cls = .i) ∧
      ran 2 straight = some (8, 2, .running) := by
  refine ⟨straight_loads, fun k hk => ?_, by decide⟩
  have hk : k = 0 ∨ k = 1 := by omega
  rcases hk with rfl | rfl
  · exact ⟨_, _, rfl, rfl, rfl⟩
  · exact ⟨_, _, rfl, rfl, rfl⟩

/-! The data store. -/

/-- The first and last legal addresses of each size, and their neighbours. -/
theorem witness_OutOfBoundsAccess :
    InBounds 64 0 .word ∧ InBounds 64 60 .word ∧ ¬ InBounds 64 61 .word ∧ ¬ InBounds 64 (-1) .byte ∧
      InBounds 64 63 .byte ∧ ¬ InBounds 64 64 .byte ∧ InBounds 64 62 .halfword ∧ utf8 (chars ['a']) = some [0x61#8] := by
  decide

theorem witness_IntegerWriteRule :
    InBounds calm.block.memSize 60 .word ∧ ¬ InBounds calm.block.memSize (-1) .word ∧ FitsSigned .byte 127 ∧
      ¬ FitsSigned .byte 128 ∧ FitsSigned .byte (-128) ∧ ¬ FitsSigned .byte (-129) ∧ calm.block.overflow = .truncate ∧
      (small .fault []).block.overflow = .fault := by decide

theorem witness_TextWriteRule :
    utf8 (text "ab") = some [0x61#8, 0x62#8] ∧ utf8 [0xE9] = some [0xC3#8, 0xA9#8] ∧ utf8 [0xD7FF, 0xDFFF] = none ∧
      (utf8 [0xE000]).isSome = true ∧ InBounds calm.block.memSize 62 .halfword ∧
      ¬ InBounds calm.block.memSize 63 .halfword := by decide

theorem witness_ReadRule :
    texted.mem.tag (Int.toNat 0) = some (.text .byte (chars ['A'])) ∧ InBounds texted.block.memSize 0 .byte ∧
      (texted.memRead 0 .byte).toOption = some (.text (chars ['A'])) ∧ (texted.memRead 0 .word).toOption = some (.int 65) ∧
      texted.mem.tag (Int.toNat 60) = none := by decide

theorem witness_IntegerRoundTrip : InBounds calm.block.memSize 62 .halfword ∧ FitsSigned .halfword (-32768) ∧
    FitsSigned .halfword 32767 := by decide

theorem witness_TextIsOneStringRow :
    calm.mem.tags = [] ∧ (text " ~") ≠ [] ∧ ((text " ~").all fun c => decide (0x20 ≤ c.val ∧ c.val ≤ 0x7E)) = true ∧
      62 + (text " ~").length ≤ calm.block.memSize := by decide

theorem witness_ProgramSnapshotRows : State.reset.prog = [] ∧ calm.prog ≠ [] ∧ calm.fetch 2 = some (entry (text "nop")) ∧
    calm.programSnapshot.map ProgramRow.isNext = [true, false, false] := by decide

end Sys2Proof.Tests
end

/-! # The invariant of the machine is kept by every step

The clauses of `State.Inv` are proved one by one: on which fields each depends, that the one operation that writes those
fields keeps it, hence that every instruction does, and hence that a step does. -/

namespace Sys2Proof.Machine

/-! The recency list. -/

/-- A touched register and the registers listed before are all a touched list holds (spec R130). -/
theorem mem_of_mem_touch {q r : RegIndex} {l : List RegIndex} (h : q ∈ touch r l) : q = r ∨ q ∈ l := by
  rcases List.mem_append.mp (List.mem_of_mem_drop h) with h | h
  · exact .inr (List.mem_of_mem_filter h)
  · exact .inl (List.mem_singleton.mp h)

/-- `touch` moves the register and does not list it a second time. -/
theorem nodup_touch {r : RegIndex} {l : List RegIndex} (h : l.Nodup) : (touch r l).Nodup := by
  have hmoved : (l.filter (· ≠ r) ++ [r]).Nodup :=
    (h.filter _).append (List.nodup_singleton r) (by simp)
  exact hmoved.sublist (List.drop_sublist _ _)

/-- The cap of R130. -/
theorem length_touch_le (r : RegIndex) (l : List RegIndex) : (touch r l).length ≤ 32 := by
  simp only [touch, List.length_drop]
  omega

/-! The registers. -/

theorem State.RegsOk.congr {s t : State} (h : s.RegsOk) (hregs : t.regs = s.regs) (hrec : t.recency = s.recency) :
    t.RegsOk where
  zero := hregs ▸ h.zero
  nodup := hrec ▸ h.nodup
  noZero := hrec ▸ h.noZero
  bounded := hrec ▸ h.bounded

theorem State.RegsOk.writeReg {s : State} (h : s.RegsOk) (r : RegIndex) (v : Int) : (s.writeReg r v).RegsOk := by
  by_cases hr : r = 0
  · rw [hr, State.writeReg_zero]; exact h
  have hrec : (s.writeReg r v).recency = touch r s.recency := by rw [State.writeReg_recency, if_neg hr]
  have hval : (r : Nat) ≠ 0 := fun h0 => hr (Fin.ext h0)
  refine ⟨?_, hrec ▸ nodup_touch h.nodup, fun h0 => ?_, hrec ▸ length_touch_le r _⟩
  · simpa only [State.writeReg_regs s hr, Vector.getElem_set_ne _ _ hval] using h.zero
  · rcases mem_of_mem_touch (hrec ▸ h0) with h0 | h0
    · exact hr h0.symm
    · exact h.noZero h0

theorem State.RegsOk.exec {i : Instr} {s t : State} (h : s.RegsOk) (hx : exec i s = .next t) : t.RegsOk := by
  rcases exec_next_cases hx with ⟨d, v, rfl⟩ | ⟨_, k, -, rfl⟩ | ⟨a, n, v, hw⟩ | rfl
  · exact h.writeReg d v
  · exact h.congr rfl rfl
  · obtain ⟨-, -, rfl⟩ := State.memWrite_ok_iff.mp hw
    exact h.congr rfl rfl
  · exact h

/-! The data store. -/

theorem State.MemOk.congr {s t : State} (h : s.MemOk) (hmem : t.mem = s.mem) (hblock : t.block = s.block) :
    t.MemOk where
  wf := hmem ▸ h.wf
  cells := hmem ▸ hblock ▸ h.cells
  tags := hmem ▸ hblock ▸ h.tags

/-- The bounds check of R221 holds the new cells and the new tag's range below `MEM_SIZE`. -/
theorem State.MemOk.memWrite {s t : State} {a : Int} {n : Size} {v : Int} (h : s.MemOk)
    (hw : s.memWrite a n v = .ok t) : t.MemOk := by
  have hwf := State.memWrite_wf hw h.wf
  obtain ⟨⟨h0, hend⟩, -, rfl⟩ := State.memWrite_ok_iff.mp hw
  have hfits : a.toNat + n.bytes ≤ s.block.memSize := by omega
  refine ⟨hwf, fun c hc => ?_, fun p hp => ?_⟩
  · rcases Memory.cells_setBytes hc with ⟨-, hlt⟩ | hc
    · rw [littleEndian_length] at hlt
      exact Nat.lt_of_lt_of_le hlt hfits
    · exact h.cells c hc
  · rcases Memory.mem_tags_setTag hp with rfl | hp
    · exact hfits
    · exact h.tags p (by simpa using hp)

theorem State.MemOk.exec {i : Instr} {s t : State} (h : s.MemOk) (hx : exec i s = .next t) : t.MemOk := by
  rcases exec_next_cases hx with ⟨d, v, rfl⟩ | ⟨_, k, -, rfl⟩ | ⟨a, n, v, hw⟩ | rfl
  · exact h.congr (s.writeReg_mem d v) (s.writeReg_block d v)
  · exact h.congr rfl rfl
  · exact h.memWrite hw
  · exact h

/-! What no instruction writes: the program, the labels and the parameters. -/

theorem State.ProgOk.congr {s t : State} (h : s.ProgOk) (hprog : t.prog = s.prog) (hlabels : t.labels = s.labels) :
    t.ProgOk where
  entries := hprog ▸ h.entries
  short := hprog ▸ h.short
  targets := hprog ▸ hlabels ▸ h.targets
  names := hlabels ▸ h.names

theorem State.ParamsOk.congr {s t : State} (h : s.ParamsOk) (hblock : t.block = s.block) (hconfig : t.config = s.config) :
    t.ParamsOk where
  memSize := hblock ▸ h.memSize
  freqHz := hconfig ▸ h.freqHz
  names := hblock ▸ h.names

/-! The program counter. -/

theorem State.fetch_eq_none_iff {s : State} {i : Nat} : s.fetch i = none ↔ s.prog.length ≤ i :=
  List.getElem?_eq_none_iff

theorem State.lt_length_of_fetch {s : State} {i : Nat} {e : Entry} (h : s.fetch i = some e) : i < s.prog.length :=
  (List.getElem?_eq_some_iff.mp h).1

/-- An instruction leaves `pc` at the advanced value or sets it to a label's program address (spec R461, R462). -/
theorem exec_next_pc {i : Instr} {s t : State} (h : exec i s = .next t) :
    t.pc = s.pc ∨ ∃ name k, (name, k) ∈ s.labels ∧ t.pc = 4 * k := by
  rcases exec_next_cases h with ⟨d, v, rfl⟩ | ⟨name, k, hk, rfl⟩ | ⟨a, n, v, hw⟩ | rfl
  · exact .inl (s.writeReg_pc d v)
  · exact .inr ⟨name, k, mem_of_lookupKey hk, rfl⟩
  · obtain ⟨-, -, rfl⟩ := State.memWrite_ok_iff.mp hw
    exact .inl rfl
  · exact .inl rfl

/-- Where there is an entry to fetch, the run has not halted (spec R411). -/
theorem State.PcOk.not_halted_of_fetch {s : State} {e : Entry} (h : s.PcOk) (hf : s.fetch (s.pc / 4) = some e) :
    s.status ≠ .halted := fun hs => by
  have hlt := State.lt_length_of_fetch hf
  have hend := h.atEnd hs
  omega

/-- An executed entry leaves `pc` aligned and in range: it lies inside the program, so the next index is at most `L`, and a
label's index is too (spec R122, R123). -/
theorem State.PcOk.executed {s u : State} {e : Entry} {i : Instr} {c : Cls} (h : s.PcOk) (hp : s.ProgOk)
    (hf : s.fetch (s.pc / 4) = some e) (hx : exec i (s.tick c) = .next u) : (u.setLast (s.pc / 4)).PcOk := by
  have hlt := State.lt_length_of_fetch hf
  have haligned := h.aligned
  obtain ⟨hstatus, -, -, -, hprog, -⟩ := exec_next_rest hx
  have hpc : u.pc % 4 = 0 ∧ u.pc ≤ 4 * s.prog.length := by
    rcases exec_next_pc hx with hpc | ⟨name, k, hk, hpc⟩
    · rw [State.tick_pc] at hpc
      omega
    · have hle : k ≤ s.prog.length := hp.targets (name, k) hk
      omega
  refine ⟨hpc.1, ?_, fun hs => ?_, fun j hj => ?_⟩
  · simpa [hprog] using hpc.2
  · rw [State.setLast_status, hstatus] at hs
    exact absurd hs (h.not_halted_of_fetch hf)
  · rw [State.setLast_last] at hj
    simpa [hprog, ← Option.some.inj hj] using hlt

/-- Halting happens only with nothing to fetch, and `pc`, at most `4*L`, is then at the end (spec R411). -/
theorem State.PcOk.enterHalt {s : State} (h : s.PcOk) (hf : s.fetch (s.pc / 4) = none) : s.enterHalt.PcOk where
  aligned := h.aligned
  inRange := h.inRange
  atEnd _ := by
    have hle := State.fetch_eq_none_iff.mp hf
    have hrange := h.inRange
    simp only [State.enterHalt_pc, State.enterHalt_prog]
    omega
  last := h.last

/-! The step. -/

/-- Executing the fetched entry on the tentative state keeps the invariant (spec R410). -/
theorem State.Inv.executed {s u : State} {e : Entry} {i : Instr} {c : Cls} (h : s.Inv)
    (hf : s.fetch (s.pc / 4) = some e) (hx : exec i (s.tick c) = .next u) : (u.setLast (s.pc / 4)).Inv := by
  obtain ⟨-, -, -, -, hprog, hlabels, hblock, hconfig⟩ := exec_next_rest hx
  have hregs : u.RegsOk := (h.regs.congr (t := s.tick c) rfl rfl).exec hx
  have hmem : u.MemOk := (h.mem.congr (t := s.tick c) rfl rfl).exec hx
  exact {
    regs := hregs.congr rfl rfl
    mem := hmem.congr rfl rfl
    prog := h.prog.congr hprog hlabels
    pc := h.pc.executed h.prog hf hx
    params := h.params.congr hblock hconfig }

/-- Halting keeps the invariant (spec R411). -/
theorem State.Inv.enterHalt {s : State} (h : s.Inv) (hf : s.fetch (s.pc / 4) = none) : s.enterHalt.Inv where
  regs := h.regs.congr rfl rfl
  mem := h.mem.congr rfl rfl
  prog := h.prog.congr rfl rfl
  pc := h.pc.enterHalt hf
  params := h.params.congr rfl rfl

/-- Settles O46: a step that goes on has executed the fetched entry or has halted, and either keeps the invariant. -/
theorem stepKeepsInvariant : Obligations.StepKeepsInvariant := by
  intro s t hinv hstep
  rcases step_next_iff.mp hstep with h | h
  · obtain ⟨-, e, u, hf, hx, rfl⟩ := stepReport_stepped_iff.mp h
    exact hinv.executed hf hx
  · obtain ⟨-, hf, -, rfl⟩ := stepReport_noStep_iff.mp h
    exact hinv.enterHalt hf

end Sys2Proof.Machine

/-! # The register file

What one register write does, the recency list it leaves, the register snapshot read from that list, and the frame of the
four instructions that write a register. -/

namespace Sys2Proof.Machine

/-! The write. -/

/-- The word stored, at the written index and at the others (spec R111). -/
theorem State.writeReg_regs_getElem (s : State) {r : RegIndex} (h : r ≠ 0) (v : Int) (q : RegIndex) :
    (s.writeReg r v).regs[q] = if q = r then BitVec.ofInt 32 v else s.regs[q] := by
  simp only [Fin.getElem_fin, State.writeReg_regs s h, Vector.getElem_set, Fin.val_inj, eq_comm]

/-- A register write in the terms the instructions' statements are made in (spec R111). -/
theorem State.regWritten_writeReg (s : State) (d : RegIndex) (v : Int) : RegWritten s (s.writeReg d v) d v where
  value := by
    by_cases hd : d = 0
    · rw [if_pos hd, hd, State.readReg_zero]
    · rw [if_neg hd, State.readReg_writeReg, if_pos ⟨rfl, hd⟩]
  others r hr := by rw [State.readReg_writeReg, if_neg fun h => hr h.1]
  recency := s.writeReg_recency d v
  rest := by unfold State.writeReg; split <;> rfl
  zero hd := by rw [hd, State.writeReg_zero]

/-- Settles O1: a write of register 0 need not be looked at, its read is 0 in every state. -/
theorem readAfterRegisterWrite : Obligations.ReadAfterRegisterWrite := fun s r v =>
  ⟨fun hr => (s.regWritten_writeReg r v).value.trans (if_neg hr), State.readReg_zero _⟩

/-- Settles O2: write and read treat index 0 apart from the array. -/
theorem zeroRegisterIsHardwired : Obligations.ZeroRegisterIsHardwired := fun s v =>
  ⟨s.writeReg_zero v, s.readReg_zero⟩

/-! The recency list. -/

/-- Register 0 is not listed and no index is listed twice, so at most 31 of the 32 indices are (spec R104, R130). -/
theorem State.RegsOk.length_recency_le {s : State} (h : s.RegsOk) : s.recency.length ≤ 31 := by
  have hcons : (0 :: s.recency).Nodup := List.nodup_cons.mpr ⟨h.noZero, h.nodup⟩
  have hcard : s.recency.length + 1 ≤ 32 := by simpa using hcons.length_le_card
  omega

/-- The cap of R130 never binds: a written register moves to the end (spec R111). -/
theorem State.RegsOk.writeReg_recency {s : State} (h : s.RegsOk) {r : RegIndex} (hr : r ≠ 0) (v : Int) :
    (s.writeReg r v).recency = s.recency.filter (· ≠ r) ++ [r] := by
  have hshort : (s.recency.filter (· ≠ r)).length < 32 :=
    Nat.lt_succ_of_le ((List.length_filter_le _ _).trans h.length_recency_le)
  rw [State.writeReg_recency, if_neg hr, touch_eq hshort]

/-- Settles O3: `RegWritten` with the words themselves and, under the invariant, the list without its cap. -/
theorem registerWriteEffect : Obligations.RegisterWriteEffect := by
  intro s r v
  have hw := s.regWritten_writeReg r v
  refine ⟨hw.zero, fun hr hok => ⟨?_, hw.value.trans (if_neg hr), fun q hq => ?_, hok.writeReg_recency hr v, hw.rest⟩⟩
  · rw [s.writeReg_regs_getElem hr, if_pos rfl]
  · rw [s.writeReg_regs_getElem hr, if_neg hq]

/-- Settles O4: the bound of 31 is the invariant's own, and away from register 0 the list is the old one with the index moved
to its end. -/
theorem recencyListStaysBounded : Obligations.RecencyListStaysBounded := by
  intro s r v hok
  have hok' := hok.writeReg r v
  refine ⟨hok', hok'.length_recency_le, fun hr => ?_, fun q => ?_⟩
  · rw [hok.writeReg_recency hr, List.getLast?_concat]
  · by_cases hr : r = 0
    · simp [hr, State.writeReg_zero]
    · rw [hok.writeReg_recency hr, List.mem_append, List.mem_filter, List.mem_singleton, decide_eq_true_eq]
      by_cases hq : q = r <;> simp [hq, hr]

/-- Settles O5: row `j` of the reversed list is the entry at place `j` from the end. -/
theorem registerSnapshotRows : Obligations.RegisterSnapshotRows := by
  intro s k
  refine ⟨by simp [State.snapshot], fun j hj => ?_⟩
  obtain ⟨hk, hlen⟩ := lt_min_iff.mp hj
  have hplace : s.recency.length - 1 - j < s.recency.length := by omega
  refine ⟨s.recency[s.recency.length - 1 - j], List.getElem?_eq_getElem hplace, ?_⟩
  rw [State.snapshot, List.getElem?_map, List.getElem?_take_of_lt hk, List.getElem?_reverse hlen,
    List.getElem?_eq_getElem hplace, Option.map_some]

/-- Settles O7: a table without duplicates names no register twice. -/
theorem defaultRegisterNames : Obligations.DefaultRegisterNames := by
  have hnodup : Config.regNames.toList.Nodup := by decide
  exact ⟨fun a b hab => Fin.ext ((hnodup.getElem_inj_iff (hi := a.isLt) (hj := b.isLt)).mp hab), rfl, rfl, rfl, rfl⟩

/-! The instructions that write a register. -/

/-- `li`, `la`, `add` and `addi` go on by writing the register their first operand names, and by nothing else (spec R421,
R426, R441, R446). -/
theorem exec_next_writeReg {i : Instr} {ops : List Text} {s t : State}
    (hi : i = .li ops ∨ i = .la ops ∨ i = .add ops ∨ i = .addi ops) (h : exec i s = .next t) :
    ∃ rd rest d v, ops = rd :: rest ∧ parseReg s.block.regNames rd = some d ∧ t = s.writeReg d v := by
  rcases hi with rfl | rfl | rfl | rfl
  · obtain ⟨rd, imm, d, v, hops, hd, -, ht⟩ := execLi_next_iff.mp h
    exact ⟨rd, [imm], d, v, hops, hd, ht⟩
  · obtain ⟨rd, x, d, v, hops, hd, -, ht⟩ := execLa_next_iff.mp h
    exact ⟨rd, [x], d, v, hops, hd, ht⟩
  · obtain ⟨rd, rs, rt, d, a, b, hops, hd, -, -, ht⟩ := execAdd_next_iff.mp h
    exact ⟨rd, [rs, rt], d, _, hops, hd, ht⟩
  · obtain ⟨rd, rs, imm, d, a, m, hops, hd, -, -, ht⟩ := execAddi_next_iff.mp h
    exact ⟨rd, [rs, imm], d, _, hops, hd, ht⟩

/-- Settles O31: the frame of the one register write. -/
theorem registerInstructionFrame : Obligations.RegisterInstructionFrame := by
  intro s t ops i hi h
  obtain ⟨rd, rest, d, v, hops, hd, rfl⟩ := exec_next_writeReg hi h
  have hw := s.regWritten_writeReg d v
  exact ⟨rd, rest, d, hops, hd, hw.others, hw.recency, by simp⟩

end Sys2Proof.Machine

/-! # The program counter after a step

The mnemonic alone selects the instruction, so a statement about an entry's `op` is one about its rule. -/

namespace Sys2Proof

/-- The instruction a mnemonic selects has that mnemonic (spec R330, R412). -/
theorem Instr.op_ofOp (op : Text) (ops : List Text) : (Instr.ofOp op ops).op = op := by
  by_cases h : op ∈ namedOps
  · fin_cases h <;> rfl
  · rw [Instr.ofOp_other h]; rfl

end Sys2Proof

namespace Sys2Proof.Machine

theorem Entry.instr_op (e : Entry) : e.instr.op = e.op := Instr.op_ofOp e.op e.operands

theorem instr_of_op_j {e : Entry} (h : e.op = text "j") : e.instr = .j e.operands := by
  rw [Entry.instr, h]; rfl

theorem instr_of_op_beq {e : Entry} (h : e.op = text "beq") : e.instr = .beq e.operands := by
  rw [Entry.instr, h]; rfl

/-- Every instruction but `j` and `beq` leaves `pc` alone (spec R121). -/
theorem exec_next_pc_eq {i : Instr} {s t : State} (hj : i.op ≠ text "j") (hbeq : i.op ≠ text "beq")
    (h : exec i s = .next t) : t.pc = s.pc := by
  have hreg : ∀ ops, i = .li ops ∨ i = .la ops ∨ i = .add ops ∨ i = .addi ops → t.pc = s.pc := fun ops hi => by
    obtain ⟨_, _, d, v, -, -, rfl⟩ := exec_next_writeReg hi h
    exact s.writeReg_pc d v
  have hstore : ∀ {a n v}, s.memWrite a n v = .ok t → t.pc = s.pc := fun hw => by
    obtain ⟨-, -, rfl⟩ := State.memWrite_ok_iff.mp hw
    rfl
  cases i with
  | li ops => exact hreg ops (.inl rfl)
  | la ops => exact hreg ops (.inr (.inl rfl))
  | add ops => exact hreg ops (.inr (.inr (.inl rfl)))
  | addi ops => exact hreg ops (.inr (.inr (.inr rfl)))
  | j ops => exact absurd rfl hj
  | beq ops => exact absurd rfl hbeq
  | sw ops => obtain ⟨_, _, _, _, -, -, -, hw⟩ := execSw_next_iff.mp h; exact hstore hw
  | sb ops => obtain ⟨_, _, _, _, -, -, -, hw⟩ := execSb_next_iff.mp h; exact hstore hw
  | _ => exact congrArg State.pc (Host.Outcome.next.inj h).symm

/-- Settles O41: the entry runs on the advanced state, and its rule's own case says what becomes of `pc`. -/
theorem programCounterAfterStep : Obligations.ProgramCounterAfterStep := by
  intro s t i hpc h
  obtain ⟨-, e, u, hf, hx, rfl⟩ := stepReport_stepped_iff.mp h
  have hi : s.pc / 4 = i := by omega
  have hnext : (s.tick e.cls).pc = 4 * (i + 1) := congrArg (· + 4) hpc
  rw [hi] at hf ⊢
  refine ⟨rfl, e, hf, ⟨hnext, u, hx, rfl⟩, fun hj hbeq => ?_, fun hj => ?_, fun hbeq => ?_⟩
  · rw [← e.instr_op] at hj hbeq
    exact (exec_next_pc_eq hj hbeq hx).trans hnext
  · rw [instr_of_op_j hj] at hx
    obtain ⟨label, k, hops, hk, rfl⟩ := execJ_next_iff.mp hx
    exact ⟨label, k, hops, State.resolve_ok_iff.mpr hk, rfl⟩
  · rw [instr_of_op_beq hbeq] at hx
    obtain ⟨rs, rt, label, a, b, hops, ha, hb, hbranch⟩ := execBeq_next_iff.mp hx
    refine ⟨rs, rt, label, a, b, hops, orInvalid_ok_iff.mpr ha, orInvalid_ok_iff.mpr hb, ?_⟩
    rcases hbranch with ⟨heq, k, hk, rfl⟩ | ⟨hne, rfl⟩
    · exact .inl ⟨heq, k, State.resolve_ok_iff.mpr hk, rfl⟩
    · exact .inr ⟨hne, hnext⟩

end Sys2Proof.Machine

/-! # The label table and LOAD

A name listed once is found with its own index. The pass of LOAD over the lines goes on under the conditions of R204, and
then gives the decoded instruction lines and one binding per label line. -/

namespace Sys2Proof.Machine

/-! Lookup by key. -/

section Keys
variable {κ α : Type} [DecidableEq κ] {k : κ} {l : List (κ × α)}

theorem lookupKey_eq_none_iff : lookupKey k l = none ↔ k ∉ l.map Prod.fst := by
  induction l with
  | nil => simp [lookupKey]
  | cons p rest ih =>
    obtain ⟨k', w⟩ := p
    by_cases h : k = k'
    · simp [lookupKey, h]
    · simpa [lookupKey, h] using ih

/-- Where no key is listed twice, the first pair of a key is its only one. -/
theorem lookupKey_eq_some_iff {v : α} (hnodup : (l.map Prod.fst).Nodup) : lookupKey k l = some v ↔ (k, v) ∈ l := by
  refine ⟨mem_of_lookupKey, fun hmem => ?_⟩
  induction l with
  | nil => exact absurd hmem List.not_mem_nil
  | cons p rest ih =>
    obtain ⟨k', w⟩ := p
    obtain ⟨hfresh, hrest⟩ := List.nodup_cons.mp hnodup
    rcases List.mem_cons.mp hmem with heq | hmem
    · obtain ⟨rfl, rfl⟩ := Prod.mk.inj heq
      simp [lookupKey]
    · have hne : k ≠ k' := fun h => hfresh (List.mem_map.mpr ⟨_, hmem, h⟩)
      rw [lookupKey, if_neg hne]
      exact ih hrest hmem

end Keys

/-- Settles O13: a table that lists each name once is read by membership. -/
theorem labelResolution : Obligations.LabelResolution := fun _ _ hnodup =>
  ⟨fun _ => State.resolve_ok_iff.trans (lookupKey_eq_some_iff hnodup),
    fun hfree => State.resolve_error_iff.mpr ⟨lookupKey_eq_none_iff.mpr hfree, rfl⟩⟩

/-! The bindings. -/

/-- The bindings the label lines make (spec R203), `n` instruction lines standing before them. -/
def labelBindings (n : Nat) : List Text → List (Text × Nat)
  | [] => []
  | line :: lines =>
    if endsWithColon line then (labelName line, n) :: labelBindings n lines else labelBindings (n + 1) lines

theorem labelBindings_cons_label {n : Nat} {line : Text} (h : endsWithColon line = true) (lines : List Text) :
    labelBindings n (line :: lines) = (labelName line, n) :: labelBindings n lines := if_pos h

theorem labelBindings_cons_instr {n : Nat} {line : Text} (h : endsWithColon line = false) (lines : List Text) :
    labelBindings n (line :: lines) = labelBindings (n + 1) lines := if_neg (by simp [h])

theorem labelBindings_append (n : Nat) (before after : List Text) :
    labelBindings n (before ++ after) =
      labelBindings n before ++ labelBindings (n + (before.filter fun l => !endsWithColon l).length) after := by
  induction before generalizing n with
  | nil => simp [labelBindings]
  | cons line lines ih =>
    cases hc : endsWithColon line with
    | true => simp [labelBindings_cons_label hc, ih, hc]
    | false => simp [labelBindings_cons_instr hc, ih, hc, Nat.add_assoc, Nat.add_comm 1]

/-- The names bound are those of the label lines, in their order. -/
theorem map_fst_labelBindings (n : Nat) (lines : List Text) :
    (labelBindings n lines).map Prod.fst = (lines.filter endsWithColon).map labelName := by
  induction lines generalizing n with
  | nil => rfl
  | cons line lines ih =>
    cases hc : endsWithColon line with
    | true => simp [labelBindings_cons_label hc, ih, hc]
    | false => simp [labelBindings_cons_instr hc, ih, hc]

/-! The pass over the lines. -/

/-- The lines pass the checks of R204 (b) to (d), `used` being the label names bound before them, and their instruction
lines decode to the entries `es`. -/
structure Accepted (used : List Text) (lines : List Text) (es : List Entry) : Prop where
  texts   : es.map Entry.text = lines.filter fun l => !endsWithColon l
  entries : ∀ e ∈ es, entryOf e.text = some e
  named   : ∀ l ∈ lines, endsWithColon l = true → labelName l ≠ []
  once    : (used ++ (lines.filter endsWithColon).map labelName).Nodup

theorem accepted_nil_iff {used : List Text} {es : List Entry} : Accepted used [] es ↔ es = [] ∧ used.Nodup := by
  constructor
  · intro h
    exact ⟨List.map_eq_nil_iff.mp h.texts, by simpa using h.once⟩
  · rintro ⟨rfl, h⟩
    exact ⟨rfl, by simp, by simp, by simpa using h⟩

theorem accepted_cons_label_iff {used : List Text} {line : Text} {lines : List Text} {es : List Entry}
    (hc : endsWithColon line = true) :
    Accepted used (line :: lines) es ↔ labelName line ≠ [] ∧ Accepted (used ++ [labelName line]) lines es := by
  constructor
  · intro h
    obtain ⟨hname, hnamed⟩ := List.forall_mem_cons.mp h.named
    exact ⟨hname hc, by simpa [hc] using h.texts, h.entries, hnamed, by simpa [hc] using h.once⟩
  · rintro ⟨hname, h⟩
    exact ⟨by simpa [hc] using h.texts, h.entries, List.forall_mem_cons.mpr ⟨fun _ => hname, h.named⟩,
      by simpa [hc] using h.once⟩

theorem accepted_cons_instr_iff {used : List Text} {line : Text} {lines : List Text} {es : List Entry}
    (hc : endsWithColon line = false) :
    Accepted used (line :: lines) es ↔ ∃ e es', es = e :: es' ∧ entryOf line = some e ∧ Accepted used lines es' := by
  constructor
  · intro h
    have htexts := h.texts
    rw [List.filter_cons_of_pos (by simp [hc])] at htexts
    obtain ⟨e, es', rfl, rfl, hrest⟩ := List.map_eq_cons_iff.mp htexts
    obtain ⟨he, hes⟩ := List.forall_mem_cons.mp h.entries
    exact ⟨e, es', rfl, he, hrest, hes, (List.forall_mem_cons.mp h.named).2, by simpa [hc] using h.once⟩
  · rintro ⟨e, es', rfl, he, h⟩
    obtain ⟨htext, hagain, -⟩ := entryOf_some he
    exact ⟨by simpa [hc, htext] using h.texts, List.forall_mem_cons.mpr ⟨hagain, h.entries⟩,
      List.forall_mem_cons.mpr ⟨by simp [hc], h.named⟩, by simpa [hc] using h.once⟩

/-- The pass of R209 goes on exactly on accepted lines, adding their entries and their bindings. -/
theorem loadLines_ok_iff {lines : List Text} {prog : List Entry} {labels : List (Text × Nat)}
    {r : List Entry × List (Text × Nat)} (hnodup : (labels.map Prod.fst).Nodup) :
    loadLines prog labels lines = .ok r ↔
      ∃ es, Accepted (labels.map Prod.fst) lines es ∧ r = (prog ++ es, labels ++ labelBindings prog.length lines) := by
  induction lines generalizing prog labels with
  | nil => simp [loadLines, accepted_nil_iff, labelBindings, hnodup, eq_comm (a := r)]
  | cons line lines ih =>
    rw [loadLines_cons_ok_iff]
    cases hc : endsWithColon line with
    | true =>
      simp only [accepted_cons_label_iff hc, labelBindings_cons_label hc]
      have hnames : (labels ++ [(labelName line, prog.length)]).map Prod.fst = labels.map Prod.fst ++ [labelName line] := by
        simp
      constructor
      · rintro (⟨-, hname, hfresh, h⟩ | ⟨hcolon, -⟩)
        · have hnodup' : ((labels ++ [(labelName line, prog.length)]).map Prod.fst).Nodup := by
            rw [hnames, ← List.concat_eq_append]
            exact hnodup.concat (lookupKey_eq_none_iff.mp hfresh)
          obtain ⟨es, hacc, rfl⟩ := (ih hnodup').mp h
          exact ⟨es, ⟨hname, hnames ▸ hacc⟩, by simp⟩
        · exact nomatch hcolon
      · rintro ⟨es, ⟨hname, hacc⟩, rfl⟩
        have hnodup' : (labels.map Prod.fst ++ [labelName line]).Nodup := hacc.once.of_append_left
        have hfresh : labelName line ∉ labels.map Prod.fst := fun hmem =>
          List.disjoint_of_nodup_append hnodup' hmem (List.mem_singleton_self _)
        exact .inl ⟨trivial, hname, lookupKey_eq_none_iff.mpr hfresh,
          (ih (hnames ▸ hnodup')).mpr ⟨es, hnames ▸ hacc, by simp⟩⟩
    | false =>
      simp only [accepted_cons_instr_iff hc, labelBindings_cons_instr hc]
      constructor
      · rintro (⟨hcolon, -⟩ | ⟨-, e, he, h⟩)
        · exact nomatch hcolon
        · obtain ⟨es, hacc, rfl⟩ := (ih hnodup).mp h
          exact ⟨e :: es, ⟨e, es, rfl, he, hacc⟩, by simp⟩
      · rintro ⟨es, ⟨e, es', rfl, he, hacc⟩, rfl⟩
        exact .inr ⟨trivial, e, he, (ih hnodup).mpr ⟨es', hacc, by simp⟩⟩

/-- LOAD goes on exactly with a good configuration on accepted lines of 1 to `2^30 - 1` instructions (spec R204, R402). -/
theorem load_ok_iff_accepted {block : Block} {lines : List Text} {c : LoadConfig} {s : State} :
    load block lines c = .ok s ↔ ∃ run es, checkConfig c = .ok run ∧ Accepted [] lines es ∧
      0 < es.length ∧ es.length < 2 ^ 30 ∧ s = State.loaded block run es (labelBindings 0 lines) := by
  rw [load_ok_iff]
  constructor
  · rintro ⟨run, prog, labels, hrun, hlines, hpos, hshort, rfl⟩
    obtain ⟨es, hacc, hr⟩ := (loadLines_ok_iff (labels := []) List.nodup_nil).mp hlines
    obtain ⟨rfl, rfl⟩ := Prod.mk.inj hr
    exact ⟨run, _, hrun, hacc, hpos, hshort, rfl⟩
  · rintro ⟨run, es, hrun, hacc, hpos, hshort, rfl⟩
    exact ⟨run, es, _, hrun, (loadLines_ok_iff (labels := []) List.nodup_nil).mpr ⟨es, hacc, rfl⟩, hpos, hshort, rfl⟩

/-- Settles O49: the table binds the label names, each once, and a label line's own binding counts the lines before it. -/
theorem loadBindsLabels : Obligations.LoadBindsLabels := by
  intro block lines c s h
  obtain ⟨run, es, -, hacc, -, -, rfl⟩ := load_ok_iff_accepted.mp h
  have hnodup : ((labelBindings 0 lines).map Prod.fst).Nodup := map_fst_labelBindings 0 lines ▸ hacc.once
  refine ⟨hacc.texts, hacc.entries, fun before line after hsplit hc => ?_, fun name k hname => ?_⟩
  · refine State.resolve_ok_iff.mpr ((lookupKey_eq_some_iff hnodup).mpr ?_)
    rw [hsplit, labelBindings_append, labelBindings_cons_label hc, Nat.zero_add]
    exact List.mem_append_right _ List.mem_cons_self
  · have hmem : name ∈ (labelBindings 0 lines).map Prod.fst :=
      List.mem_map_of_mem (f := Prod.fst) (mem_of_lookupKey (State.resolve_ok_iff.mp hname))
    rw [map_fst_labelBindings] at hmem
    obtain ⟨line, hline, hname⟩ := List.mem_map.mp hmem
    obtain ⟨hline, hc⟩ := List.mem_filter.mp hline
    exact ⟨line, hline, hc, hname⟩

/-! What LOAD refuses. -/

theorem Accepted.length_eq {used lines : List Text} {es : List Entry} (h : Accepted used lines es) :
    es.length = (lines.filter fun l => !endsWithColon l).length := by
  rw [← h.texts, List.length_map]

/-- A line with a token has an entry (spec R204 d, R209). -/
theorem exists_entryOf {line : Text} (h : tokenize line ≠ []) : ∃ e, entryOf line = some e := by
  obtain ⟨tok, ops, htok⟩ := List.exists_cons_of_ne_nil h
  exact ⟨_, by rw [entryOf, decode, htok]; rfl⟩

/-- Lines with a token are the texts of the entries made of them. -/
theorem exists_entries {lines : List Text} (h : ∀ l ∈ lines, tokenize l ≠ []) :
    ∃ es : List Entry, es.map Entry.text = lines ∧ ∀ e ∈ es, entryOf e.text = some e := by
  induction lines with
  | nil => exact ⟨[], rfl, by simp⟩
  | cons line lines ih =>
    obtain ⟨hline, hlines⟩ := List.forall_mem_cons.mp h
    obtain ⟨e, he⟩ := exists_entryOf hline
    obtain ⟨htext, hagain, -⟩ := entryOf_some he
    obtain ⟨es, htexts, hes⟩ := ih hlines
    exact ⟨e :: es, by rw [List.map_cons, htext, htexts], List.forall_mem_cons.mpr ⟨hagain, hes⟩⟩

/-- Some entries make the lines accepted exactly when the checks of R204 (b) to (d) all pass. -/
theorem exists_accepted_iff {lines : List Text} :
    (∃ es, Accepted [] lines es) ↔
      (∀ l ∈ lines, endsWithColon l = true → labelName l ≠ []) ∧
      ((lines.filter endsWithColon).map labelName).Nodup ∧
      (∀ l ∈ lines, endsWithColon l = false → tokenize l ≠ []) := by
  constructor
  · rintro ⟨es, h⟩
    refine ⟨h.named, h.once, fun l hl hc => ?_⟩
    have hmem : l ∈ es.map Entry.text := h.texts ▸ List.mem_filter.mpr ⟨hl, by simp [hc]⟩
    obtain ⟨e, he, rfl⟩ := List.mem_map.mp hmem
    exact (entryOf_some (h.entries e he)).2.2
  · rintro ⟨hnamed, honce, htokens⟩
    obtain ⟨es, htexts, hes⟩ := exists_entries (lines := lines.filter fun l => !endsWithColon l) fun l hl => by
      obtain ⟨hl, hc⟩ := List.mem_filter.mp hl
      exact htokens l hl (by simpa using hc)
    exact ⟨es, htexts, hes, hnamed, honce⟩

/-- The count check refuses a program as `MalformedProgram` only (spec R204). -/
theorem checkCount_error {p : List Entry × List (Text × Nat)} {e : Error} (h : checkCount p = .error e) :
    e.kind = .malformedProgram := by
  unfold checkCount at h
  split at h
  · exact Except.error.inj h ▸ rfl
  split at h
  · exact Except.error.inj h ▸ rfl
  exact nomatch h

/-- A failure of LOAD is one of the configuration or of the program (spec R622). -/
theorem load_error_kind {block : Block} {lines : List Text} {c : LoadConfig} {e : Error} (h : load block lines c = .error e) :
    checkConfig c = .error e ∨ e.kind = .malformedProgram := by
  rcases bind_error_iff.mp h with h | ⟨run, -, h⟩
  · exact .inl h
  rcases bind_error_iff.mp h with h | ⟨p, -, h⟩
  · exact .inr (loadLines_error h)
  rcases bind_error_iff.mp h with h | ⟨q, -, h⟩
  · exact .inr (checkCount_error h)
  · exact nomatch h

/-- Settles O50: LOAD goes on where the lines are accepted and their entries are few enough and not none. -/
theorem loadRefusesMalformedPrograms : Obligations.LoadRefusesMalformedPrograms := by
  intro block lines c run hrun
  refine ⟨⟨?_, ?_⟩, fun e he => (load_error_kind he).resolve_left (by simp [hrun])⟩
  · rintro ⟨s, h⟩
    obtain ⟨_, es, -, hacc, hpos, hshort, -⟩ := load_ok_iff_accepted.mp h
    rw [hacc.length_eq] at hpos hshort
    exact ⟨hpos, hshort, exists_accepted_iff.mp ⟨es, hacc⟩⟩
  · rintro ⟨hpos, hshort, hchecks⟩
    obtain ⟨es, hacc⟩ := exists_accepted_iff.mpr hchecks
    rw [← hacc.length_eq] at hpos hshort
    exact ⟨_, load_ok_iff_accepted.mpr ⟨run, es, hrun, hacc, hpos, hshort, rfl⟩⟩

end Sys2Proof.Machine

/-! # The data store under a step

What a step does to the fields it may not write, and to memory: one integer write or nothing. -/

namespace Sys2Proof.Machine

/-- A step that goes on has run an instruction on the tentative state and set `last`, or has halted (spec R410, R411). -/
theorem step_next_cases {s t : State} (h : step s = .next t) :
    (∃ i c u k, exec i (s.tick c) = .next u ∧ t = u.setLast k) ∨ t = s.enterHalt := by
  rcases step_next_iff.mp h with h | h
  · obtain ⟨-, e, u, -, hx, ht⟩ := stepReport_stepped_iff.mp h
    exact .inl ⟨_, _, u, _, hx, ht⟩
  · obtain ⟨-, -, -, ht⟩ := stepReport_noStep_iff.mp h
    exact .inr ht

/-- The state a fault carries is the one before the step but for the status (spec R415, R610). -/
theorem step_fault_state {s t : State} {err : Error} {i : Nat} {x : Text} (h : step s = .fault (.ended err i x t)) :
    t = s ∨ t = s.enterFault err i x := by
  obtain ⟨_, _, _, _, h, heq⟩ := step_fault_iff.mp h
  injection heq with h1 h2 h3 h4
  subst h1 h2 h3 h4
  rcases stepReport_fault_iff.mp h with ⟨-, ht⟩ | ⟨-, -, e, -, -, -, ht⟩
  · exact .inl ht
  · exact .inr ht

/-- Settles O42: neither an instruction nor what STEP itself sets writes these fields. -/
theorem stepNeverWritesProgram : Obligations.StepNeverWritesProgram := by
  rintro s t (h | ⟨err, i, x, h⟩)
  · rcases step_next_cases h with ⟨i, c, u, k, hx, rfl⟩ | rfl
    · obtain ⟨-, -, -, -, hrest⟩ := exec_next_rest hx
      exact hrest
    · exact ⟨rfl, rfl, rfl, rfl⟩
  · rcases step_fault_state h with rfl | rfl
    · exact ⟨rfl, rfl, rfl, rfl⟩
    · exact ⟨rfl, rfl, rfl, rfl⟩

/-- The memory after a step is the one before it or that of one integer write (spec R225). -/
theorem step_next_mem {s t : State} (h : step s = .next t) :
    t.mem = s.mem ∨ ∃ u a n v, s.memWrite a n v = .ok u ∧ t.mem = u.mem := by
  rcases step_next_cases h with ⟨i, c, u, k, hx, rfl⟩ | rfl
  · rcases exec_next_cases hx with ⟨d, v, rfl⟩ | ⟨_, j, -, rfl⟩ | ⟨a, n, v, hw⟩ | rfl
    · exact .inl (State.writeReg_mem _ d v)
    · exact .inl rfl
    · obtain ⟨hin, hfits, rfl⟩ := State.memWrite_ok_iff.mp hw
      exact .inr ⟨_, a, n, v, State.memWrite_ok_iff.mpr ⟨hin, hfits, rfl⟩, rfl⟩
    · exact .inl rfl
  · exact .inl rfl

/-- Settles O43: the one tag an integer write sets is no textual one. -/
theorem stepWritesNoTextTag : Obligations.StepWritesNoTextTag := by
  intro s t a n x h htag
  rcases step_next_mem h with hmem | ⟨u, b, m, v, hw, hmem⟩
  · rwa [hmem] at htag
  · obtain ⟨-, -, hat, hothers, -⟩ := State.memWrite_effect hw
    rw [hmem] at htag
    by_cases hab : a = b.toNat
    · rw [hab, hat] at htag
      exact nomatch htag
    · rwa [hothers a hab] at htag

/-- Settles O47: each write keeps the form, and a step is at most one integer write. -/
theorem memoryFormKept : Obligations.MemoryFormKept := by
  intro s t hwf
  refine ⟨fun h => ?_, fun a n v h => State.memWrite_wf h hwf, fun a n x h => State.memWriteText_wf h hwf⟩
  rcases step_next_mem h with hmem | ⟨u, b, m, v, hw, hmem⟩
  · exact hmem ▸ hwf
  · exact hmem ▸ State.memWrite_wf hw hwf

end Sys2Proof.Machine

/-! # The data store's own interface

What a write stores and a read gives back, in the terms of the spec's rules, whatever the store held before. -/

namespace Sys2Proof.Machine

/-! The read. -/

/-- In bounds `MemRead` answers what is at the address (spec R224). -/
theorem State.memRead_of_inBounds {s : State} {a : Int} {n : Size} (h : InBounds s.block.memSize a n) :
    s.memRead a n = .ok (s.mem.value a.toNat n) := if_neg (not_not.mpr h)

theorem State.memRead_of_not_inBounds {s : State} {a : Int} {n : Size} (h : ¬ InBounds s.block.memSize a n) :
    s.memRead a n = .error (.outOfBounds a n) := if_pos h

/-- Settles O54: the bounds check is the first of a read and an integer write, and follows the length check of a textual
write. -/
theorem outOfBoundsAccess : Obligations.OutOfBoundsAccess := by
  intro s a n
  refine ⟨?_, fun h => ⟨fun v => ?_, State.memRead_of_not_inBounds h, fun x bs hbs hlen => ?_⟩,
    fun h => ⟨_, State.memRead_of_inBounds h⟩⟩
  · cases n <;> rfl
  · exact State.memWrite_error_iff.mpr (.inl ⟨h, rfl⟩)
  · exact State.memWriteText_error_iff.mpr (.inr ⟨⟨bs, hbs, hlen⟩, h, rfl⟩)

/-! The integer write. -/

/-- The digits of `v` below `a * b`, those below `a` cut off. -/
theorem emod_mul_ediv (v b : Int) {a : Int} (ha : 0 < a) : v % (a * b) / a = v / a % b := by
  rw [Int.emod_def, mul_assoc, Int.sub_mul_ediv_left _ _ ha.ne', ← Int.ediv_ediv_of_nonneg ha.le, ← Int.emod_def]

theorem toNat_byteOf (v : Int) (k : Nat) : ((byteOf v k).toNat : Int) = v / 2 ^ (8 * k) % 256 := by
  rw [byteOf, BitVec.toNat_ofInt, Int.toNat_of_nonneg (Int.emod_nonneg _ (by decide))]
  rfl

/-- The byte `k` of an integer and the same byte of its value modulo `2^(8n)` (spec R14, R222). -/
theorem toNat_byteOf_of_lt {v : Int} {n k : Nat} (h : k < n) :
    ((byteOf v k).toNat : Int) = v % 2 ^ (8 * n) / 2 ^ (8 * k) % 256 := by
  have hsplit : (2 : Int) ^ (8 * n) = 2 ^ (8 * k) * (256 * 2 ^ (8 * (n - (k + 1)))) := by
    rw [show (256 : Int) = 2 ^ 8 from rfl, ← pow_add, ← pow_add]
    congr 1
    omega
  have hpos : (0 : Int) < 2 ^ (8 * k) := by positivity
  rw [toNat_byteOf, hsplit, emod_mul_ediv _ _ hpos, Int.emod_emod_of_dvd _ (Dvd.intro _ rfl)]

/-- A store in the terms the instructions' statements are made in (spec R222). -/
theorem State.memWritten_of_memWrite {s t : State} {a : Int} {n : Size} {v : Int} (h : s.memWrite a n v = .ok t) :
    MemWritten s t a.toNat n v := by
  obtain ⟨hbytes, houtside, htag, hothers, hrest⟩ := State.memWrite_effect h
  exact ⟨fun k hk => by rw [hbytes k hk, toNat_byteOf_of_lt hk], houtside, htag, hothers, hrest⟩

/-- Settles O55: the two errors and the one state `MemWrite` answers. -/
theorem integerWriteRule : Obligations.IntegerWriteRule := by
  intro s a n v
  refine ⟨fun h => State.memWrite_error_iff.mpr (.inl ⟨h, rfl⟩), fun hin => ⟨fun h => ?_, fun h => ?_⟩⟩
  · exact State.memWrite_error_iff.mpr (.inr ⟨hin, h.1, h.2, rfl⟩)
  · have hw := State.memWrite_ok_iff.mpr ⟨hin, h, rfl⟩
    exact ⟨_, hw, State.memWritten_of_memWrite hw⟩

/-! The textual write. -/

theorem utf8_eq_none_iff {x : Text} : utf8 x = none ↔ ∃ c ∈ x, 0xD800 ≤ c.val ∧ c.val ≤ 0xDFFF := by
  unfold utf8
  simp [isSurrogate]

/-- The bytes and tags after a `MemWriteText` (spec R223, R226). -/
theorem State.memWriteText_effect {s t : State} {a : Int} {n : Size} {x : Text} {bs : List Byte} (hbs : utf8 x = some bs)
    (h : s.memWriteText a n x = .ok t) :
    (∀ k b, bs[k]? = some b → t.mem.byte (a.toNat + k) = b) ∧
    (∀ b, b < a.toNat ∨ a.toNat + n.bytes ≤ b → t.mem.byte b = s.mem.byte b) ∧
    t.mem.tag a.toNat = some (.text n x) ∧ (∀ b, b ≠ a.toNat → t.mem.tag b = s.mem.tag b) ∧
    t = { s with mem := t.mem } := by
  obtain ⟨bs', hbs', hlen, -, rfl⟩ := State.memWriteText_ok_iff.mp h
  obtain rfl := Option.some.inj (hbs.symm.trans hbs')
  refine ⟨fun k b hk => ?_, fun b hb => ?_, by simp, fun b hb => ?_, rfl⟩
  · obtain ⟨hlt, hget⟩ := List.getElem?_eq_some_iff.mp hk
    rw [Memory.byte_setTag, Memory.byte_setBytes_inside _ _ _ _ hlt, hget]
  · rw [Memory.byte_setTag, Memory.byte_setBytes_outside _ _ _ _ (hlen ▸ hb)]
  · rw [Memory.tag_setTag_ne _ _ _ _ hb, Memory.tag_setBytes]

/-- Settles O56: only a surrogate has no bytes, the length is checked before the bounds, and the write's state is known. -/
theorem textWriteRule : Obligations.TextWriteRule := by
  intro s a n x
  refine ⟨utf8_eq_none_iff, fun hnone => ?_, fun bs hbs => ⟨fun hlen => ?_, fun hlen => ⟨fun hout => ?_, fun hin => ?_⟩⟩⟩
  · exact State.memWriteText_error_iff.mpr (.inl ⟨by simp [hnone], rfl⟩)
  · exact State.memWriteText_error_iff.mpr (.inl ⟨by simp [hbs, hlen], rfl⟩)
  · exact State.memWriteText_error_iff.mpr (.inr ⟨⟨bs, hbs, hlen⟩, hout, rfl⟩)
  · have hw := State.memWriteText_ok_iff.mpr ⟨bs, hbs, hlen, hin, rfl⟩
    exact ⟨_, hw, State.memWriteText_effect hbs hw⟩

/-! What a read answers. -/

/-- The little-endian value as the sum the spec writes (spec R224). -/
theorem Memory.bytesValue_eq_sum (m : Memory) (a n : Nat) :
    m.bytesValue a n = ((List.range n).map fun k => (m.byte (a + k)).toNat * 256 ^ k).sum := by
  induction n generalizing a with
  | zero => rfl
  | succ n ih =>
    rw [Memory.bytesValue, ih, List.range_succ_eq_map, List.map_cons, List.sum_cons, List.map_map, ← List.sum_map_mul_left]
    refine congrArg₂ (· + ·) (by simp) (congrArg List.sum (List.map_congr_left fun k _ => ?_))
    rw [Function.comp_apply, Nat.succ_eq_add_one, pow_succ', Nat.add_right_comm, ← Nat.add_assoc, Nat.mul_left_comm]

theorem Memory.value_of_text {m : Memory} {a : Nat} {n : Size} {x : Text} (h : m.tag a = some (.text n x)) :
    m.value a n = .text x := by
  simp [Memory.value, h]

/-- Without a text of the size at the address, a read gives the signed reading of the bytes (spec R224). -/
theorem Memory.value_of_not_text {m : Memory} {a : Nat} {n : Size} (h : ∀ x, m.tag a ≠ some (.text n x)) :
    m.value a n = .int (sext (8 * n.bytes) (m.bytesValue a n.bytes)) := by
  unfold Memory.value
  split
  · rename_i n' x htag
    exact if_neg fun (hn : n' = n) => h x (hn ▸ htag)
  · rfl

/-- Settles O57: the signed reading is `sext` of the sum. -/
theorem readRule : Obligations.ReadRule := by
  intro s a n
  refine ⟨State.memRead_of_not_inBounds, fun hin => ⟨fun x htag => ?_, fun htag u hu => ?_⟩⟩
  · rw [State.memRead_of_inBounds hin, Memory.value_of_text htag]
  · rw [State.memRead_of_inBounds hin, Memory.value_of_not_text htag, Memory.bytesValue_eq_sum, ← hu, sext]

/-! The round trip. -/

theorem byteOf_succ (v : Int) (k : Nat) : byteOf v (k + 1) = byteOf (v / 256) k := by
  rw [byteOf, byteOf, Int.ediv_ediv_of_nonneg (by decide), show (256 : Int) = 2 ^ 8 from rfl, ← pow_add, Nat.mul_succ,
    Nat.add_comm]

/-- Bytes read where those of an integer stand give the integer modulo `256^n`. -/
theorem Memory.bytesValue_of_byteOf {m : Memory} {a n : Nat} {v : Int} (h : ∀ k, k < n → m.byte (a + k) = byteOf v k) :
    (m.bytesValue a n : Int) = v % 256 ^ n := by
  induction n generalizing a v with
  | zero => simp [Memory.bytesValue]
  | succ n ih =>
    have hlow : ((m.byte a).toNat : Int) = v % 256 := by
      rw [← Nat.add_zero a, h 0 n.succ_pos, toNat_byteOf, Nat.mul_zero, pow_zero, Int.ediv_one]
    have hhigh : (m.bytesValue (a + 1) n : Int) = v / 256 % 256 ^ n := ih fun k hk => by
      rw [Nat.add_right_comm, Nat.add_assoc, h (k + 1) (Nat.succ_lt_succ hk), byteOf_succ]
    rw [Memory.bytesValue, Int.natCast_add, Int.natCast_mul, hlow, hhigh, pow_succ', Nat.cast_ofNat,
      ← emod_mul_ediv _ _ (by decide), ← Int.emod_emod_of_dvd v (Dvd.intro (256 ^ n) rfl), Int.emod_add_mul_ediv]

/-- Reading the value modulo `2^(8n)` back as signed gives a value in the signed range (spec R15, R227). -/
theorem sext_of_fitsSigned {n : Size} {v : Int} {u : Nat} (h : FitsSigned n v) (hu : (u : Int) = v % 256 ^ n.bytes) :
    sext (8 * n.bytes) u = v := by
  obtain ⟨hlow, hhigh⟩ := h
  unfold sext
  cases n
  all_goals
    norm_num [Size.bytes] at hu hlow hhigh ⊢
    split <;> omega

/-- What a write of a fitting value stores is read back (spec R227). -/
theorem State.memRead_of_memWrite {s t : State} {a : Int} {n : Size} {v : Int} (hfits : FitsSigned n v)
    (h : s.memWrite a n v = .ok t) : t.memRead a n = .ok (.int v) := by
  obtain ⟨hin, -, ht⟩ := State.memWrite_ok_iff.mp h
  have hin' : InBounds t.block.memSize a n := by rw [ht]; exact hin
  obtain ⟨hbytes, -, htag, -, -⟩ := State.memWrite_effect h
  rw [State.memRead_of_inBounds hin', Memory.value_of_not_text (by simp [htag]),
    sext_of_fitsSigned hfits (Memory.bytesValue_of_byteOf hbytes)]

/-- Settles O58: a fitting value is written under both values of the parameter. -/
theorem integerRoundTrip : Obligations.IntegerRoundTrip := by
  intro s a n v hin hfits
  have hw := State.memWrite_ok_iff.mpr ⟨hin, .inl hfits, rfl⟩
  exact ⟨_, hw, State.memRead_of_memWrite hfits hw⟩

end Sys2Proof.Machine

/-! # A written text in the data snapshot

Printable characters written one at a time stand at rising addresses, each under a one-byte textual tag, so that the snapshot
joins them into one row. -/

namespace Sys2Proof.Machine

/-- Printable and non-null, as a string byte of R228 is. -/
abbrev Printable (c : CodePoint) : Prop := 0x20 ≤ c.val ∧ c.val ≤ 0x7E

/-- A printable character is one byte, its own number (spec R223). -/
theorem utf8_printable {c : CodePoint} (h : Printable c) : utf8 [c] = some [BitVec.ofNat 8 c.val] := by
  refine utf8_some_iff.mpr ⟨fun d hd => ?_, ?_⟩
  · obtain rfl := List.mem_singleton.mp hd
    simp only [isSurrogate, Bool.and_eq_false_iff, decide_eq_false_iff_not]
    omega
  · simp only [textBytes, List.flatMap_singleton, codePointBytes]
    rw [if_pos (by omega)]

theorem toNat_ofNat_printable {c : CodePoint} (h : Printable c) : (BitVec.ofNat 8 c.val).toNat = c.val := by
  rw [BitVec.toNat_ofNat]
  omega

/-! The tags of a written text. -/

/-- The tags that writing a text one code point at a time sets. -/
def charTags (a : Nat) : Text → List (Nat × Tag)
  | [] => []
  | c :: cs => (a, .text .byte [c]) :: charTags (a + 1) cs

/-- From `a` on stand the characters of a text, each tagged as one (spec R228). -/
def Memory.HasChars (m : Memory) (a : Nat) : Text → Prop
  | [] => True
  | c :: cs => m.byte a = BitVec.ofNat 8 c.val ∧ m.tag a = some (.text .byte [c]) ∧ m.HasChars (a + 1) cs

/-- Above every listed address a pair goes to the end. -/
theorem putAt_eq_append {α : Type} {a : Nat} {v : α} {l : List (Nat × α)} (h : ∀ p ∈ l, p.1 < a) :
    putAt a v l = l ++ [(a, v)] := by
  induction l with
  | nil => rfl
  | cons p rest ih =>
    obtain ⟨b, w⟩ := p
    obtain ⟨hb, hrest⟩ := List.forall_mem_cons.mp h
    rw [putAt, if_neg (Nat.not_lt.mpr (Nat.le_of_lt hb)), if_neg (Nat.ne_of_gt hb), ih hrest, List.cons_append]

/-- The memory after one character is written (spec R223). -/
def Memory.putChar (m : Memory) (a : Nat) (c : CodePoint) : Memory :=
  (m.setByte a (BitVec.ofNat 8 c.val)).setTag a (.text .byte [c])

section PutChar
variable (m : Memory) (a b : Nat) (c : CodePoint)

theorem Memory.byte_putChar_self : (m.putChar a c).byte a = BitVec.ofNat 8 c.val := m.byte_setByte_self a _

theorem Memory.byte_putChar_ne (h : b ≠ a) : (m.putChar a c).byte b = m.byte b := m.byte_setByte_ne a b _ h

theorem Memory.tag_putChar_self : (m.putChar a c).tag a = some (.text .byte [c]) := Memory.tag_setTag_self _ a _

theorem Memory.tag_putChar_ne (h : b ≠ a) : (m.putChar a c).tag b = m.tag b := Memory.tag_setTag_ne _ a b _ h

theorem Memory.tags_putChar (h : ∀ p ∈ m.tags, p.1 < a) : (m.putChar a c).tags = m.tags ++ [(a, .text .byte [c])] :=
  putAt_eq_append h

end PutChar

theorem State.memWriteText_printable {s : State} {a : Nat} {c : CodePoint} (hc : Printable c) (ha : a < s.block.memSize) :
    s.memWriteText a .byte [c] = .ok { s with mem := s.mem.putChar a c } :=
  State.memWriteText_ok_iff.mpr ⟨_, utf8_printable hc, rfl, ⟨by omega, by simp only [Size.bytes]; omega⟩, rfl⟩

/-- Text written character by character above every tagged address stands there, its tags after the others; below it
nothing changes. -/
theorem writeChars_printable {s : State} {a : Nat} {x : Text} (hx : ∀ c ∈ x, Printable c)
    (hfits : a + x.length ≤ s.block.memSize) (habove : ∀ p ∈ s.mem.tags, p.1 < a) :
    ∃ t, writeChars s a x = .ok t ∧ t.mem.HasChars a x ∧ t.mem.tags = s.mem.tags ++ charTags a x ∧
      ∀ b < a, t.mem.byte b = s.mem.byte b ∧ t.mem.tag b = s.mem.tag b := by
  induction x generalizing s a with
  | nil => exact ⟨s, rfl, trivial, (List.append_nil _).symm, fun b _ => ⟨rfl, rfl⟩⟩
  | cons c cs ih =>
    obtain ⟨hc, hcs⟩ := List.forall_mem_cons.mp hx
    rw [List.length_cons] at hfits
    have hfirst := State.memWriteText_printable hc (show a < s.block.memSize by omega)
    have htags := s.mem.tags_putChar a c habove
    have habove' : ∀ p ∈ (s.mem.putChar a c).tags, p.1 < a + 1 := by
      rw [htags, List.forall_mem_append]
      exact ⟨fun p hp => Nat.lt_succ_of_lt (habove p hp), by simp⟩
    obtain ⟨t, hrest, hchars, htags', hbelow⟩ := ih (s := { s with mem := s.mem.putChar a c }) hcs
      (Nat.le_trans (by omega) hfits) habove'
    obtain ⟨hbyte, htag⟩ := hbelow a (Nat.lt_succ_self a)
    refine ⟨t, bind_ok_iff.mpr ⟨_, hfirst, hrest⟩, ⟨?_, ?_, hchars⟩, ?_, fun b hb => ?_⟩
    · rw [hbyte, Memory.byte_putChar_self]
    · rw [htag, Memory.tag_putChar_self]
    · rw [htags', htags, List.append_assoc, charTags, List.singleton_append]
    · obtain ⟨hbyte, htag⟩ := hbelow b (Nat.lt_succ_of_lt hb)
      rw [hbyte, htag, Memory.byte_putChar_ne _ _ _ _ hb.ne, Memory.tag_putChar_ne _ _ _ _ hb.ne]
      exact ⟨rfl, rfl⟩

/-! The row. -/

/-- A character that stands with its tag is a string byte and shows as itself (spec R228). -/
theorem Memory.rows_cons_printable {m : Memory} {a : Nat} {c : CodePoint} (hc : Printable c)
    (hbyte : m.byte a = BitVec.ofNat 8 c.val) (htag : m.tag a = some (.text .byte [c])) (t : Tag) (rest : List (Nat × Tag)) :
    m.rows ((a, t) :: rest) = joinString a c (m.rows rest) := by
  have hval : (m.byte a).toNat = c.val := by rw [hbyte, toNat_ofNat_printable hc]
  have hstring : m.isStringByte a = true := by
    simp only [Memory.isStringByte, htag, hval]
    exact decide_eq_true hc
  have hchar : Fin.ofNat 0x110000 c.val = c := Fin.ext (Nat.mod_eq_of_lt c.isLt)
  rw [Memory.rows, if_pos hstring, hval, hchar]

/-- The tags of a standing text give one row: each character joins the run after it (spec R228). -/
theorem Memory.rows_charTags {m : Memory} {a : Nat} {x : Text} (hne : x ≠ []) (hx : ∀ c ∈ x, Printable c)
    (h : m.HasChars a x) : m.rows (charTags a x) = [.string a x] := by
  induction x generalizing a with
  | nil => exact absurd rfl hne
  | cons c cs ih =>
    obtain ⟨hc, hcs⟩ := List.forall_mem_cons.mp hx
    obtain ⟨hbyte, htag, hrest⟩ := h
    rw [charTags, Memory.rows_cons_printable hc hbyte htag]
    by_cases hlast : cs = []
    · rw [hlast]; rfl
    · rw [ih hlast hcs hrest, joinString, if_pos rfl]

/-- Settles O59: over a store without tags the text's own tags are all the snapshot shows. -/
theorem textIsOneStringRow : Obligations.TextIsOneStringRow := by
  intro s a x hempty hne hx hfits
  obtain ⟨t, hwrite, hchars, htags, -⟩ := writeChars_printable hx hfits (by simp [hempty])
  rw [hempty, List.nil_append] at htags
  refine ⟨t, hwrite, ?_⟩
  rw [State.dataSnapshot, htags, Memory.rows_charTags hne hx hchars]

end Sys2Proof.Machine

/-! # Tokens, lines and instructions

Separators split a line into its tokens, so that the line `encode` writes is read back token by token; and what decoding
gives is well-formed. -/

namespace Sys2Proof

/-! The tokens of a line. -/

theorem isWs_iff (c : CodePoint) : isWs c = true ↔ c.val ∈ [0x20, 0x09, 0x0A, 0x0B, 0x0C, 0x0D] := by
  simp [isWs, or_assoc]

@[simp] theorem tokenize_nil : tokenize [] = [] := rfl

/-- Whitespace separates, and a comma does, as it becomes a space (spec R302). -/
theorem tokenize_append_separator (a b : Text) {c : CodePoint} (h : isWs c = true ∨ c = cp ',') :
    tokenize (a ++ c :: b) = tokenize a ++ tokenize b := by
  have hblank : ∃ d, replaceCommas (c :: b) = d :: replaceCommas b ∧ isWs d = true := by
    by_cases hc : c = cp ','
    · exact ⟨cp ' ', by simp [replaceCommas, hc], isWs_space⟩
    · exact ⟨c, by simp [replaceCommas, hc], h.resolve_right hc⟩
  obtain ⟨d, hd, hws⟩ := hblank
  rw [tokenize, replaceCommas_append, hd, splitWs_append_ws _ _ hws]
  rfl

/-- Settles O14: a run without separators is a token, and a token is its own one token. -/
theorem tokenisation : Obligations.Tokenisation :=
  ⟨isWs_iff, tokenize_nil, fun _ hne h => tokenize_of_isToken (isToken_iff.mpr ⟨hne, h⟩),
    fun a b _ h => tokenize_append_separator a b h⟩

/-- Cut at its separators, a line falls into runs without any, which are tokens or empty (spec R302). -/
theorem isToken_of_mem_tokenize (line : Text) : ∀ w ∈ tokenize line, isToken w = true := by
  by_cases h : ∃ c ∈ line, isWs c = true ∨ c = cp ','
  · obtain ⟨c, hc, hsep⟩ := h
    obtain ⟨a, b, hsplit⟩ := List.append_of_mem hc
    rw [hsplit, tokenize_append_separator a b hsep, List.forall_mem_append]
    exact ⟨isToken_of_mem_tokenize a, isToken_of_mem_tokenize b⟩
  · by_cases hne : line = []
    · simp [hne]
    · have hline : isToken line = true := isToken_iff.mpr ⟨hne, by simpa using h⟩
      simp [tokenize_of_isToken hline, hline]
termination_by line.length
decreasing_by
  all_goals
    rw [hsplit, List.length_append, List.length_cons]
    omega

/-- Tokens with a space between them are read back (spec R302). -/
theorem tokenize_joinTokens {ts : List Text} (h : ∀ t ∈ ts, isToken t = true) : tokenize (joinTokens ts) = ts := by
  induction ts with
  | nil => rfl
  | cons t us ih =>
    obtain ⟨ht, hus⟩ := List.forall_mem_cons.mp h
    cases us with
    | nil => exact tokenize_of_isToken ht
    | cons u us =>
      rw [joinTokens, tokenize_append_separator _ _ (.inl isWs_space), tokenize_of_isToken ht, ih hus, List.singleton_append]

/-! The mnemonic. -/

/-- A capital is moved by 0x20, nothing else moves (spec R303). -/
theorem lowerChar_val (c : CodePoint) :
    (lowerChar c).val = if 0x41 ≤ c.val ∧ c.val ≤ 0x5A then c.val + 0x20 else c.val := by
  unfold lowerChar
  split
  · exact Nat.mod_eq_of_lt (by omega)
  · rfl

/-- A lowercased letter is no capital. -/
theorem lowerChar_lowerChar (c : CodePoint) : lowerChar (lowerChar c) = lowerChar c := by
  apply Fin.ext
  rw [lowerChar_val, lowerChar_val]
  split_ifs <;> omega

theorem asciiLower_asciiLower (t : Text) : asciiLower (asciiLower t) = asciiLower t := by
  simp [asciiLower, lowerChar_lowerChar]

theorem isTokenChar_iff (c : CodePoint) :
    isTokenChar c = true ↔ c.val ∉ [0x20, 0x09, 0x0A, 0x0B, 0x0C, 0x0D] ∧ c.val ≠ 0x2C := by
  have hws : isWs c = false ↔ c.val ∉ [0x20, 0x09, 0x0A, 0x0B, 0x0C, 0x0D] := by
    rw [← isWs_iff, Bool.not_eq_true]
  have hcomma : c = cp ',' ↔ c.val = 0x2C := Fin.ext_iff
  simp only [isTokenChar, Bool.and_eq_true, Bool.not_eq_true', bne_iff_ne, ne_eq, hws, hcomma]

/-- Lowercasing makes no separator. -/
theorem isTokenChar_lowerChar {c : CodePoint} (h : isTokenChar c = true) : isTokenChar (lowerChar c) = true := by
  rw [isTokenChar_iff, lowerChar_val] at *
  split
  · simp only [List.mem_cons, List.not_mem_nil, or_false]
    omega
  · exact h

theorem isToken_asciiLower {t : Text} (h : isToken t = true) : isToken (asciiLower t) = true := by
  simp only [isToken, asciiLower, Bool.and_eq_true, List.all_eq_true, List.isEmpty_map, List.forall_mem_map] at *
  exact h.imp_right fun hchars c hc => isTokenChar_lowerChar (hchars c hc)

/-- A mnemonic that is none of these six has class I (spec R304). -/
theorem classOf_eq_i {op : Text} (h : op ∉ [text "j", text "jal", text "add", text "sub", text "and", text "or"]) :
    classOf op = .i := by
  simp only [List.mem_cons, List.not_mem_nil, or_false, not_or] at h
  obtain ⟨hj, hjal, hadd, hsub, hand, hor⟩ := h
  have hr := not_or.mpr ⟨hadd, not_or.mpr ⟨hsub, not_or.mpr ⟨hand, hor⟩⟩⟩
  exact (if_neg (not_or.mpr ⟨hj, hjal⟩)).trans (if_neg hr)

/-- Settles O16: six mnemonics are looked up, and every other one is I. -/
theorem classAssignment : Obligations.ClassAssignment := by
  intro op
  by_cases h : op ∈ [text "j", text "jal", text "add", text "sub", text "and", text "or"]
  · revert op
    decide
  · rw [classOf_eq_i h]
    simp only [List.mem_cons, List.not_mem_nil, or_false, not_or] at h ⊢
    simp [h]

/-! Instructions and their lines. -/

/-- The mnemonic and the operands of a well-formed instruction are tokens, the mnemonic in lower case. -/
theorem Instr.tokens_of_wf {i : Instr} (h : i.wf = true) :
    isToken i.op = true ∧ asciiLower i.op = i.op ∧ ∀ t ∈ i.operands, isToken t = true := by
  cases i
  case other op ops =>
    obtain ⟨hop, hops⟩ := Bool.and_eq_true_iff.mp h
    obtain ⟨htok, hlow, -⟩ := isOtherOp_iff.mp hop
    exact ⟨htok, hlow, List.all_eq_true.mp hops⟩
  all_goals exact ⟨rfl, rfl, List.all_eq_true.mp h⟩

/-- A lowercase token and operand tokens make a well-formed instruction, whichever row the mnemonic selects (spec R330). -/
theorem Instr.wf_ofOp {op : Text} {ops : List Text} (hop : isToken op = true) (hlow : asciiLower op = op)
    (hops : ∀ t ∈ ops, isToken t = true) : (Instr.ofOp op ops).wf = true := by
  have hall := List.all_eq_true.mpr hops
  by_cases h : op ∈ namedOps
  · fin_cases h <;> exact hall
  · rw [Instr.ofOp_other h]
    exact Bool.and_eq_true_iff.mpr ⟨isOtherOp_iff.mpr ⟨hop, hlow, h⟩, hall⟩

/-- The mnemonic and the operands select a well-formed instruction (spec R330). -/
theorem Instr.ofOp_op_operands {i : Instr} (h : i.wf = true) : Instr.ofOp i.op i.operands = i := by
  cases i
  case other op ops => exact (Laws.OpSelects.other op ops h).1
  all_goals rfl

theorem decode_of_tokenize_eq_nil {line : Text} (h : tokenize line = []) : decode line = none := by
  unfold decode; rw [h]

theorem decode_of_tokenize_eq_cons {line tok : Text} {ops : List Text} (h : tokenize line = tok :: ops) :
    decode line = some ⟨asciiLower tok, ops, classOf (asciiLower tok)⟩ := by
  unfold decode; rw [h]

theorem decodeLine_of_tokenize_eq_cons {line tok : Text} {ops : List Text} (h : tokenize line = tok :: ops) :
    decodeLine line = some (Instr.ofOp (asciiLower tok) ops) := by
  rw [decodeLine, decode_of_tokenize_eq_cons h, Option.map_some]

/-- The comma at the end of a line that would end in a colon adds no token. -/
theorem tokenize_encode (i : Instr) : tokenize (encode i) = tokenize (joinTokens (i.op :: i.operands)) := by
  unfold encode
  dsimp only
  split
  · rw [tokenize_append_separator _ _ (.inr rfl), tokenize_nil, List.append_nil]
  · rfl

theorem endsWithColon_encode (i : Instr) : endsWithColon (encode i) = false := by
  unfold encode
  dsimp only
  split
  · simp [endsWithColon]
  · rename_i h
    exact Bool.eq_false_iff.mpr h

/-- Settles O17: the tokens of the line are those of the instruction, and they select it. -/
theorem decodeEncodeRoundTrip : Obligations.DecodeEncodeRoundTrip := by
  intro i h
  obtain ⟨hop, hlow, hops⟩ := Instr.tokens_of_wf h
  have htokens : tokenize (encode i) = i.op :: i.operands :=
    (tokenize_encode i).trans (tokenize_joinTokens (List.forall_mem_cons.mpr ⟨hop, hops⟩))
  refine ⟨?_, endsWithColon_encode i⟩
  rw [decodeLine_of_tokenize_eq_cons htokens, hlow, Instr.ofOp_op_operands h]

/-- Settles O18: the tokens of a line are tokens, and the first one stays one when it is lowercased. -/
theorem decodeIsTotalAndWellFormed : Obligations.DecodeIsTotalAndWellFormed := by
  intro line
  cases htoks : tokenize line with
  | nil => exact ⟨fun h => absurd rfl h, fun i hi => by simp [decodeLine, decode_of_tokenize_eq_nil htoks] at hi⟩
  | cons tok ops =>
    have hline := decodeLine_of_tokenize_eq_cons htoks
    obtain ⟨htok, hops⟩ := List.forall_mem_cons.mp (htoks ▸ isToken_of_mem_tokenize line)
    refine ⟨fun _ => ⟨_, hline⟩, fun i hi => ?_⟩
    obtain rfl := Option.some.inj (hline.symm.trans hi)
    exact Instr.wf_ofOp (isToken_asciiLower htok) (asciiLower_asciiLower tok) hops

/-- Settles O15: lowercasing works place by place. -/
theorem decodeRecord : Obligations.DecodeRecord := by
  refine ⟨fun _ => decode_of_tokenize_eq_nil, fun line tok ops h => ?_⟩
  refine ⟨_, decode_of_tokenize_eq_cons h, rfl, rfl, asciiLower_length tok, fun k c hk => ?_⟩
  exact ⟨lowerChar c, by simp [asciiLower, hk], lowerChar_val c⟩

/-- Settles O20: the eight lines are decoded. -/
theorem specLinesDecode : Obligations.SpecLinesDecode := by
  refine ⟨?_, ?_, ?_, ?_, ?_, ?_, ?_, ?_⟩ <;> decide

end Sys2Proof

/-! # The word of a line

The bytes of a code point are recognised by their first one, so a text is read back from its bytes; and the bytes are read
back from their word, as far as the last of them is not zero. -/

namespace Sys2Proof

/-! The bytes of a text. -/

theorem acceptCodePoint_codePointBytes {c : CodePoint} {n : Nat} {bs : List Byte} (hn : n = c.val)
    (hbs : bs = codePointBytes c) (rest : Option Text) : acceptCodePoint n bs rest = rest.map (c :: ·) := by
  subst hn hbs
  rw [acceptCodePoint, dif_pos c.isLt, if_pos rfl]

/-- The first byte of one below 0x80 stands alone. -/
theorem bytesText_cons_one {b0 : Byte} (h0 : b0.toNat < 0x80) (rest : List Byte) :
    bytesText (b0 :: rest) = acceptCodePoint b0.toNat [b0] (bytesText rest) := by
  rw [bytesText.eq_def]
  exact if_pos h0

theorem bytesText_cons_two {b0 : Byte} (h0 : 0x80 ≤ b0.toNat) (h1 : b0.toNat < 0xE0) (b1 : Byte) (rest : List Byte) :
    bytesText (b0 :: b1 :: rest) =
      acceptCodePoint (b0.toNat % 0x20 * 0x40 + b1.toNat % 0x40) [b0, b1] (bytesText rest) := by
  rw [bytesText.eq_def]
  exact (if_neg (Nat.not_lt.mpr h0)).trans (if_pos h1)

theorem bytesText_cons_three {b0 : Byte} (h0 : 0xE0 ≤ b0.toNat) (h1 : b0.toNat < 0xF0) (b1 b2 : Byte) (rest : List Byte) :
    bytesText (b0 :: b1 :: b2 :: rest) =
      acceptCodePoint ((b0.toNat % 0x10 * 0x40 + b1.toNat % 0x40) * 0x40 + b2.toNat % 0x40) [b0, b1, b2]
        (bytesText rest) := by
  rw [bytesText.eq_def]
  exact (if_neg (by omega)).trans ((if_neg (Nat.not_lt.mpr h0)).trans (if_pos h1))

theorem bytesText_cons_four {b0 : Byte} (h0 : 0xF0 ≤ b0.toNat) (b1 b2 b3 : Byte) (rest : List Byte) :
    bytesText (b0 :: b1 :: b2 :: b3 :: rest) =
      acceptCodePoint (((b0.toNat % 0x08 * 0x40 + b1.toNat % 0x40) * 0x40 + b2.toNat % 0x40) * 0x40 + b3.toNat % 0x40)
        [b0, b1, b2, b3] (bytesText rest) := by
  rw [bytesText.eq_def]
  exact (if_neg (by omega)).trans ((if_neg (by omega)).trans (if_neg (Nat.not_lt.mpr h0)))

theorem toNat_ofNat_byte {n : Nat} (h : n < 0x100) : (BitVec.ofNat 8 n).toNat = n := by
  rw [BitVec.toNat_ofNat, Nat.mod_eq_of_lt h]

/-- The first code point is read back from its bytes, in each of the four ranges of R223. -/
theorem bytesText_codePointBytes_append (c : CodePoint) (rest : List Byte) :
    bytesText (codePointBytes c ++ rest) = (bytesText rest).map (c :: ·) := by
  have hc := c.isLt
  have hbytes := codePointBytes.eq_def c
  dsimp only at hbytes
  split_ifs at hbytes <;> rw [hbytes]
  · refine (bytesText_cons_one ?_ rest).trans (acceptCodePoint_codePointBytes ?_ hbytes.symm _)
    all_goals
      simp only [BitVec.toNat_ofNat]
      omega
  · refine (bytesText_cons_two ?_ ?_ _ rest).trans (acceptCodePoint_codePointBytes ?_ hbytes.symm _)
    all_goals
      simp only [BitVec.toNat_ofNat]
      omega
  · refine (bytesText_cons_three ?_ ?_ _ _ rest).trans (acceptCodePoint_codePointBytes ?_ hbytes.symm _)
    all_goals
      simp only [BitVec.toNat_ofNat]
      omega
  · refine (bytesText_cons_four ?_ _ _ _ rest).trans (acceptCodePoint_codePointBytes ?_ hbytes.symm _)
    all_goals
      simp only [BitVec.toNat_ofNat]
      omega

/-- A text is read back from its bytes. -/
theorem bytesText_textBytes (t : Text) : bytesText (textBytes t) = some t := by
  induction t with
  | nil => simp [textBytes, bytesText]
  | cons c cs ih =>
    rw [textBytes, List.flatMap_cons, bytesText_codePointBytes_append, ← textBytes, ih, Option.map_some]

/-- Only NUL has a zero byte, at the end of its bytes. -/
theorem getLast?_codePointBytes_ne_zero {c : CodePoint} (h : c ≠ 0) : (codePointBytes c).getLast? ≠ some 0#8 := by
  have hpos : c.val ≠ 0 := fun h0 => h (Fin.ext h0)
  have hbyte : ∀ n, 0 < n → n < 0x100 → BitVec.ofNat 8 n ≠ 0#8 := fun n h0 hn heq =>
    absurd (toNat_ofNat_byte hn ▸ congrArg BitVec.toNat heq) h0.ne'
  unfold codePointBytes
  dsimp only
  split_ifs
  all_goals
    simp only [List.getLast?_cons_cons, List.getLast?_singleton, ne_eq, Option.some.injEq]
    exact hbyte _ (by omega) (by omega)

theorem codePointBytes_ne_nil (c : CodePoint) : codePointBytes c ≠ [] := by
  unfold codePointBytes
  dsimp only
  split_ifs <;> simp

theorem getLast?_textBytes_ne_zero {t : Text} (h : t.getLast? ≠ some 0) : (textBytes t).getLast? ≠ some 0#8 := by
  rcases List.eq_nil_or_concat t with rfl | ⟨init, c, rfl⟩
  · simp [textBytes]
  · rw [textBytes, List.concat_eq_append, List.flatMap_append, List.flatMap_singleton,
      List.getLast?_append_of_ne_nil _ (codePointBytes_ne_nil c)]
    exact getLast?_codePointBytes_ne_zero (by simpa using h)

/-! The bytes of a word. -/

theorem wordOfBytes_lt (bs : List Byte) : wordOfBytes bs < 2 ^ (8 * bs.length) := by
  induction bs with
  | nil => exact Nat.one_pos
  | cons b bs ih =>
    have hb := b.isLt
    rw [wordOfBytes, List.length_cons, Nat.mul_succ, pow_add]
    omega

theorem wordBytes_wordOfBytes (bs : List Byte) : wordBytes bs.length (wordOfBytes bs) = bs := by
  induction bs with
  | nil => rfl
  | cons b bs ih =>
    have hb := b.isLt
    have hhead : BitVec.ofNat 8 (b.toNat + 256 * wordOfBytes bs) = b := by
      apply BitVec.eq_of_toNat_eq
      rw [BitVec.toNat_ofNat]
      omega
    have htail : (b.toNat + 256 * wordOfBytes bs) / 256 = wordOfBytes bs := by omega
    rw [List.length_cons, wordOfBytes, wordBytes, hhead, htail, ih]

theorem dropTrailingZeros_eq {bs : List Byte} (h : bs.getLast? ≠ some 0#8) : dropTrailingZeros bs = bs := by
  rcases List.eq_nil_or_concat bs with rfl | ⟨init, b, rfl⟩
  · rfl
  · have hb : b ≠ 0#8 := by simpa using h
    simp [dropTrailingZeros, hb]

/-- Bytes whose last one is not zero are read back from their word. -/
theorem textOfWord_wordOfBytes {bs : List Byte} (h : bs.getLast? ≠ some 0#8) :
    textOfWord (8 * bs.length) (wordOfBytes bs) = bytesText bs := by
  have hcount : (8 * bs.length + 7) / 8 = bs.length := by omega
  rw [textOfWord, Nat.mod_eq_of_lt (wordOfBytes_lt bs), hcount, wordBytes_wordOfBytes, dropTrailingZeros_eq h]

/-- Settles O19: word, bytes, line and instruction, each read back from the one before. -/
theorem wordOfLineRoundTrip : Obligations.WordOfLineRoundTrip := by
  intro i hwf hlast
  rw [decodeTableWord, textOfWord_wordOfBytes (getLast?_textBytes_ne_zero hlast), bytesText_textBytes, Option.bind_some]
  exact (decodeEncodeRoundTrip i hwf).1

end Sys2Proof

/-! # The operand grammars

Each parser accepts exactly the relation the spec writes: digits first, then the bodies of `INT` and `OFF`, then the memory
operand; and every number has its decimal and its `0x` form among them. -/

namespace Sys2Proof.Machine

/-! Digits. -/

theorem lowerDigits_getElem?_iff {c : CodePoint} {d : Nat} (hd : d < 16) :
    lowerDigits[d]? = some c ↔ c.val = if d < 10 then 0x30 + d else 0x57 + d := by
  interval_cases d <;> simp [lowerDigits, chars, Fin.ext_iff, eq_comm]

theorem upperDigits_getElem?_iff {c : CodePoint} {d : Nat} (hd : d < 16) :
    upperDigits[d]? = some c ↔ c.val = if d < 10 then 0x30 + d else 0x37 + d := by
  interval_cases d <;> simp [upperDigits, chars, Fin.ext_iff, eq_comm]

/-- The value of a digit is its place in one of the two rows of R321. -/
theorem digitValue_eq_some_iff {c : CodePoint} {d : Nat} :
    digitValue c = some d ↔ d < 16 ∧ (lowerDigits[d]? = some c ∨ upperDigits[d]? = some c) := by
  rw [and_congr_right fun hd => or_congr (lowerDigits_getElem?_iff hd) (upperDigits_getElem?_iff hd)]
  unfold digitValue
  split_ifs <;> simp only [Option.some.injEq, false_iff] <;> omega

theorem digitOf_eq_some_iff {base : Nat} (hbase : base ≤ 16) {c : CodePoint} {d : Nat} :
    digitOf base c = some d ↔ IsDigit base c d := by
  rw [digitOf, Option.filter_eq_some_iff, digitValue_eq_some_iff, decide_eq_true_eq]
  exact ⟨fun ⟨⟨_, hrow⟩, hd⟩ => ⟨hd, hrow⟩, fun ⟨hd, hrow⟩ => ⟨⟨hd.trans_le hbase, hrow⟩, hd⟩⟩

/-- One more digit at the end is one more place. -/
theorem numeralFrom_concat (base acc : Nat) (t : Text) (c : CodePoint) :
    numeralFrom base acc (t ++ [c]) =
      (numeralFrom base acc t).bind fun n => (digitOf base c).map fun d => n * base + d := by
  induction t generalizing acc with
  | nil => simp only [List.nil_append, numeralFrom, Option.bind_some]; cases digitOf base c <;> rfl
  | cons b bs ih =>
    simp only [List.cons_append, numeralFrom]
    cases digitOf base b with
    | none => rfl
    | some d => exact ih _

theorem numeral_of_ne_nil {base : Nat} {t : Text} (h : t ≠ []) : numeral base t = numeralFrom base 0 t := by
  cases t with
  | nil => exact absurd rfl h
  | cons c cs => rfl

theorem Digits.ne_nil {base n : Nat} {t : Text} (h : Digits base t n) : t ≠ [] := by
  cases h <;> simp

/-- The parser reads a numeral from the left, the grammar builds it at the right. -/
theorem digits_of_numeral {base : Nat} {t : Text} {n : Nat} (h : numeral base t = some n)
    (hbase : base ≤ 16 := by decide) : Digits base t n := by
  induction t using List.reverseRecOn generalizing n with
  | nil => exact nomatch h
  | append_singleton t c ih =>
    rw [numeral_of_ne_nil (by simp), numeralFrom_concat] at h
    obtain ⟨m, hm, h⟩ := Option.bind_eq_some_iff.mp h
    obtain ⟨d, hd, rfl⟩ := Option.map_eq_some_iff.mp h
    rw [digitOf_eq_some_iff hbase] at hd
    by_cases ht : t = []
    · obtain rfl : 0 = m := by simpa [ht, numeralFrom] using hm
      simpa [ht] using Digits.one hd
    · exact (ih (numeral_of_ne_nil ht ▸ hm)).more hd

theorem Digits.numeral_eq_some {base : Nat} {t : Text} {n : Nat} (h : Digits base t n) (hbase : base ≤ 16 := by decide) :
    numeral base t = some n := by
  induction h with
  | one hd => simp [numeral, numeralFrom, (digitOf_eq_some_iff hbase).mpr hd]
  | more ht hd ih =>
    rw [numeral_of_ne_nil ht.ne_nil] at ih
    rw [numeral_of_ne_nil (by simp), numeralFrom_concat, ih, (digitOf_eq_some_iff hbase).mpr hd]
    rfl

/-- The digits of every base, in either case. -/
def digitAlphabet : Text := lowerDigits ++ upperDigits

theorem IsDigit.mem_alphabet {base d : Nat} {c : CodePoint} (h : IsDigit base c d) : c ∈ digitAlphabet :=
  List.mem_append.mpr (h.2.imp List.mem_of_getElem? List.mem_of_getElem?)

theorem Digits.subset_alphabet {base n : Nat} {t : Text} (h : Digits base t n) : t ⊆ digitAlphabet := by
  induction h with
  | one hd => exact List.cons_subset.mpr ⟨hd.mem_alphabet, List.nil_subset _⟩
  | more _ hd ih => exact List.append_subset.mpr ⟨ih, List.cons_subset.mpr ⟨hd.mem_alphabet, List.nil_subset _⟩⟩

theorem zeros_subset_alphabet {t : Text} (h : ∀ c ∈ t, c = cp '0') : t ⊆ digitAlphabet := fun c hc =>
  h c hc ▸ (by decide : cp '0' ∈ digitAlphabet)

/-! `INT`. -/

theorem onlyZeros_eq_some_iff {t : Text} {n : Nat} : onlyZeros t = some n ↔ (∀ c ∈ t, c = cp '0') ∧ n = 0 := by
  unfold onlyZeros
  rw [Option.ite_none_right_eq_some, List.all_eq_true, Option.some.injEq, eq_comm (a := 0)]
  simp only [decide_eq_true_eq]

/-- A number without a leading zero is decimal. -/
theorem intBody_cons_of_ne {c : CodePoint} (h : c ≠ cp '0') (t : Text) : intBody (c :: t) = numeral 10 (c :: t) := if_neg h

/-- The letter after a leading zero tells the base (spec R321). -/
theorem intAfterZero_cons (x : CodePoint) (t : Text) :
    intAfterZero (x :: t) =
      if x = cp 'x' ∨ x = cp 'X' then numeral 16 t
      else if x = cp 'o' ∨ x = cp 'O' then numeral 8 t
      else if x = cp 'b' ∨ x = cp 'B' then numeral 2 t
      else onlyZeros (x :: t) := rfl

theorem intAfterZero_of_zeros {t : Text} (h : ∀ c ∈ t, c = cp '0') : intAfterZero t = some 0 := by
  cases t with
  | nil => rfl
  | cons c t =>
    obtain rfl := h c List.mem_cons_self
    exact onlyZeros_eq_some_iff.mpr ⟨h, rfl⟩

theorem intBody_of_body {t : Text} {n : Nat} (h : IntBody t n) : intBody t = some n := by
  cases h with
  | hex hletter hd | oct hletter hd | bin hletter hd => rcases hletter with rfl | rfl <;> exact hd.numeral_eq_some
  | dec hc hd => exact (intBody_cons_of_ne hc _).trans hd.numeral_eq_some
  | zeros hne hzeros =>
    obtain ⟨c, cs, rfl⟩ := List.exists_cons_of_ne_nil hne
    obtain ⟨rfl, hcs⟩ := List.forall_mem_cons.mp hzeros
    exact intAfterZero_of_zeros hcs

theorem body_of_intAfterZero {t : Text} {n : Nat} (h : intAfterZero t = some n) : IntBody (cp '0' :: t) n := by
  cases t with
  | nil =>
    obtain rfl : 0 = n := Option.some.inj h
    exact .zeros (by simp) (by simp)
  | cons x t =>
    rw [intAfterZero_cons] at h
    split_ifs at h with hx ho hb
    · exact .hex hx (digits_of_numeral h)
    · exact .oct ho (digits_of_numeral h)
    · exact .bin hb (digits_of_numeral h)
    · obtain ⟨hzeros, rfl⟩ := onlyZeros_eq_some_iff.mp h
      exact .zeros (by simp) (List.forall_mem_cons.mpr ⟨rfl, hzeros⟩)

/-- `BODY` of R321. -/
theorem intBody_eq_some_iff {t : Text} {n : Nat} : intBody t = some n ↔ IntBody t n := by
  refine ⟨fun h => ?_, intBody_of_body⟩
  cases t with
  | nil => exact nomatch h
  | cons c cs =>
    by_cases hc : c = cp '0'
    · subst hc
      exact body_of_intAfterZero h
    · exact .dec hc (digits_of_numeral (intBody_cons_of_ne hc cs ▸ h))

/-- A body begins with a digit, so it has no sign. -/
theorem IntBody.head_mem_alphabet {c : CodePoint} {t : Text} {n : Nat} (h : IntBody (c :: t) n) : c ∈ digitAlphabet := by
  cases h with
  | dec _ hd => exact hd.subset_alphabet List.mem_cons_self
  | zeros _ hzeros => exact zeros_subset_alphabet hzeros List.mem_cons_self
  | _ => decide

theorem parseInt_minus (t : Text) : parseInt (cp '-' :: t) = (intBody t).map fun n : Nat => -(n : Int) := rfl

theorem parseInt_plus (t : Text) : parseInt (cp '+' :: t) = (intBody t).map fun n : Nat => (n : Int) := rfl

theorem parseInt_unsigned {c : CodePoint} (hm : c ≠ cp '-') (hp : c ≠ cp '+') (t : Text) :
    parseInt (c :: t) = (intBody (c :: t)).map fun n : Nat => (n : Int) :=
  (if_neg hm).trans (if_neg hp)

/-- `parse_int` accepts exactly the grammar `INT` (spec R321). -/
theorem parseInt_eq_some_iff {t : Text} {v : Int} : parseInt t = some v ↔ IntToken t v := by
  constructor
  · intro h
    cases t with
    | nil => exact nomatch h
    | cons c cs =>
      by_cases hm : c = cp '-'
      · subst hm
        obtain ⟨n, hn, rfl⟩ := Option.map_eq_some_iff.mp (parseInt_minus cs ▸ h)
        exact .minus (intBody_eq_some_iff.mp hn)
      by_cases hp : c = cp '+'
      · subst hp
        obtain ⟨n, hn, rfl⟩ := Option.map_eq_some_iff.mp (parseInt_plus cs ▸ h)
        exact .plus (intBody_eq_some_iff.mp hn)
      · obtain ⟨n, hn, rfl⟩ := Option.map_eq_some_iff.mp (parseInt_unsigned hm hp cs ▸ h)
        exact .unsigned (intBody_eq_some_iff.mp hn)
  · intro h
    cases h with
    | plus h => rw [parseInt_plus, intBody_eq_some_iff.mpr h]; rfl
    | minus h => rw [parseInt_minus, intBody_eq_some_iff.mpr h]; rfl
    | unsigned h =>
      cases t with
      | nil => exact nomatch intBody_eq_some_iff.mpr h
      | cons c cs =>
        have hm : c ≠ cp '-' := ne_of_mem_of_not_mem h.head_mem_alphabet (by decide)
        have hp : c ≠ cp '+' := ne_of_mem_of_not_mem h.head_mem_alphabet (by decide)
        rw [parseInt_unsigned hm hp, intBody_eq_some_iff.mpr h]
        rfl

theorem parseInt_eq_none {t : Text} (h : ∀ v : Int, ¬ IntToken t v) : parseInt t = none :=
  Option.eq_none_iff_forall_ne_some.mpr fun v hv => h v (parseInt_eq_some_iff.mp hv)

/-- A parser that answers exactly a grammar gives the operand its value or the error of R321. -/
theorem orInvalid_of_grammar {α : Type} {tok : Text} {o : Option α} {P : α → Prop} (h : ∀ v, o = some v ↔ P v) :
    (∀ v, orInvalid tok o = .ok v ↔ P v) ∧ ((∀ v, ¬ P v) → orInvalid tok o = .error (.invalidOperand tok)) :=
  ⟨fun v => orInvalid_ok_iff.trans (h v), fun hnot =>
    orInvalid_error_iff.mpr ⟨Option.eq_none_iff_forall_ne_some.mpr fun v hv => hnot v ((h v).mp hv), rfl⟩⟩

/-- Settles O8: the parser answers the grammar `INT`. -/
theorem integerLiteralGrammar : Obligations.IntegerLiteralGrammar := fun _ =>
  orInvalid_of_grammar fun _ => parseInt_eq_some_iff

/-! `IMM`, `NUMLAB` and `REG`. -/

theorem parseChar_eq_some_iff {t : Text} {v : Int} :
    parseChar t = some v ↔ ∃ c : CodePoint, t = [cp '\'', c, cp '\''] ∧ v = c.val := by
  constructor
  · intro h
    unfold parseChar at h
    split at h
    · split_ifs at h with hq
      obtain ⟨rfl, rfl⟩ := hq
      exact ⟨_, rfl, (Option.some.inj h).symm⟩
    · exact nomatch h
  · rintro ⟨c, rfl, rfl⟩
    rfl

/-- Settles O9: a character literal is looked for first. -/
theorem immediateOperand : Obligations.ImmediateOperand := by
  refine ⟨fun c => rfl, fun tok h => ?_⟩
  have hchar : parseChar tok = none := Option.eq_none_iff_forall_ne_some.mpr fun v hv => by
    obtain ⟨c, hc, -⟩ := parseChar_eq_some_iff.mp hv
    exact h c hc
  rw [immOperand, intOperand, parseImm, hchar]

/-- Settles O10: a token that is no number goes to the label table. -/
theorem numberOrLabelOperand : Obligations.NumberOrLabelOperand := by
  intro s tok
  refine ⟨fun v hv => ?_, fun h => ⟨fun k hk => ?_, fun hfree => ?_⟩⟩
  · rw [State.numlabOperand, parseInt_eq_some_iff.mpr hv]
  · rw [State.numlabOperand, parseInt_eq_none h, State.target_eq, State.resolve_ok_iff.mp hk]
    rfl
  · rw [State.numlabOperand, parseInt_eq_none h, State.target_eq, hfree]
    rfl

theorem name_of_parseReg {names : Vector Text 32} {t : Text} {i : RegIndex} (h : parseReg names t = some i) :
    names[i] = t := by
  unfold parseReg at h
  exact of_decide_eq_true (List.find?_some (p := fun i : RegIndex => decide (names[i] = t)) h)

/-- A name is found at its own index, the only one it stands at (spec R101, R320). -/
theorem parseReg_eq_some_iff {names : Vector Text 32} (hnames : NamesDistinct names) {t : Text} {i : RegIndex} :
    parseReg names t = some i ↔ names[i] = t := by
  refine ⟨name_of_parseReg, ?_⟩
  rintro rfl
  cases hfind : parseReg names names[i] with
  | none => exact absurd (decide_eq_true rfl) (List.find?_eq_none.mp hfind i (List.mem_finRange i))
  | some j => rw [hnames j i (name_of_parseReg hfind)]

/-- Settles O6: under distinct names the search answers the one index. -/
theorem registerOperandLookup : Obligations.RegisterOperandLookup := fun _ _ hnames =>
  orInvalid_of_grammar fun _ => parseReg_eq_some_iff hnames

/-! `OFF` and `MEMREF`. -/

theorem offsetBody_cons_of_ne {c : CodePoint} (h : c ≠ cp '0') (t : Text) : offsetBody (c :: t) = numeral 10 (c :: t) :=
  if_neg h

theorem offsetAfterZero_of_zeros {t : Text} (h : ∀ c ∈ t, c = cp '0') : offsetAfterZero t = some 0 := by
  cases t with
  | nil => rfl
  | cons c t =>
    obtain rfl := h c List.mem_cons_self
    exact onlyZeros_eq_some_iff.mpr ⟨h, rfl⟩

theorem offBody_of_offsetAfterZero {t : Text} {n : Nat} (h : offsetAfterZero t = some n) : OffBody (cp '0' :: t) n := by
  cases t with
  | nil =>
    obtain rfl : 0 = n := Option.some.inj h
    exact .zeros (by simp) (by simp)
  | cons x t =>
    unfold offsetAfterZero at h
    dsimp only at h
    split_ifs at h with hx
    · exact hx ▸ .hex (digits_of_numeral h)
    · obtain ⟨hzeros, rfl⟩ := onlyZeros_eq_some_iff.mp h
      exact .zeros (by simp) (List.forall_mem_cons.mpr ⟨rfl, hzeros⟩)

/-- `OFF` of R325 without its sign. -/
theorem offsetBody_eq_some_iff {t : Text} {n : Nat} : offsetBody t = some n ↔ OffBody t n := by
  constructor
  · intro h
    cases t with
    | nil => exact nomatch h
    | cons c cs =>
      by_cases hc : c = cp '0'
      · subst hc
        exact offBody_of_offsetAfterZero h
      · exact .dec hc (digits_of_numeral (offsetBody_cons_of_ne hc cs ▸ h))
  · intro h
    cases h with
    | hex hd => exact hd.numeral_eq_some
    | dec hc hd => exact (offsetBody_cons_of_ne hc _).trans hd.numeral_eq_some
    | zeros hne hzeros =>
      obtain ⟨c, cs, rfl⟩ := List.exists_cons_of_ne_nil hne
      obtain ⟨rfl, hcs⟩ := List.forall_mem_cons.mp hzeros
      exact offsetAfterZero_of_zeros hcs

/-- What an offset is written with. -/
def offsetAlphabet : Text := cp '-' :: cp 'x' :: digitAlphabet

theorem OffBody.subset_alphabet {t : Text} {n : Nat} (h : OffBody t n) : t ⊆ cp 'x' :: digitAlphabet := by
  cases h with
  | hex hd =>
    have hx : cp 'x' ∈ cp 'x' :: digitAlphabet := List.mem_cons_self
    have h0 : cp '0' ∈ cp 'x' :: digitAlphabet := by decide
    exact List.cons_subset.mpr ⟨h0, List.cons_subset.mpr ⟨hx, List.subset_cons_of_subset _ hd.subset_alphabet⟩⟩
  | dec _ hd => exact List.subset_cons_of_subset _ hd.subset_alphabet
  | zeros _ hzeros => exact List.subset_cons_of_subset _ (zeros_subset_alphabet hzeros)

theorem OffToken.subset_alphabet {t : Text} {v : Int} (h : OffToken t v) : t ⊆ offsetAlphabet := by
  cases h with
  | plain h => exact List.subset_cons_of_subset _ h.subset_alphabet
  | minus h => exact List.cons_subset_cons _ h.subset_alphabet

theorem parseOffset_minus (t : Text) : parseOffset (cp '-' :: t) = (offsetBody t).map fun n : Nat => -(n : Int) := rfl

theorem parseOffset_plain {c : CodePoint} (hm : c ≠ cp '-') (t : Text) :
    parseOffset (c :: t) = (offsetBody (c :: t)).map fun n : Nat => (n : Int) :=
  if_neg hm

/-- `OFF` of R325. -/
theorem parseOffset_eq_some_iff {t : Text} {v : Int} : parseOffset t = some v ↔ OffToken t v := by
  constructor
  · intro h
    cases t with
    | nil => exact nomatch h
    | cons c cs =>
      by_cases hm : c = cp '-'
      · subst hm
        obtain ⟨n, hn, rfl⟩ := Option.map_eq_some_iff.mp (parseOffset_minus cs ▸ h)
        exact .minus (offsetBody_eq_some_iff.mp hn)
      · obtain ⟨n, hn, rfl⟩ := Option.map_eq_some_iff.mp (parseOffset_plain hm cs ▸ h)
        exact .plain (offsetBody_eq_some_iff.mp hn)
  · intro h
    cases h with
    | minus h => rw [parseOffset_minus, offsetBody_eq_some_iff.mpr h]; rfl
    | plain h =>
      cases t with
      | nil => exact nomatch offsetBody_eq_some_iff.mpr h
      | cons c cs =>
        have hm : c ≠ cp '-' := ne_of_mem_of_not_mem (h.subset_alphabet List.mem_cons_self) (by decide)
        rw [parseOffset_plain hm, offsetBody_eq_some_iff.mpr h]
        rfl

/-- The first `(` cuts a token into offset and base, the base closed by the last code point (spec R325). -/
theorem parseMemref_split_iff {names : Vector Text 32} {o b : Text} (ho : cp '(' ∉ o) {off : Int} {base : RegIndex} :
    parseMemref names (o ++ cp '(' :: b) = some (off, base) ↔
      ∃ name, b = name ++ [cp ')'] ∧ parseOffset o = some off ∧ parseReg names name = some base := by
  have hpos : ∀ c ∈ o, decide (c ≠ cp '(') = true := fun c hc => decide_eq_true (ne_of_mem_of_not_mem hc ho)
  have hdrop : (o ++ cp '(' :: b).dropWhile (fun c => decide (c ≠ cp '(')) = cp '(' :: b := by
    rw [List.dropWhile_append_of_pos hpos, List.dropWhile_cons_of_neg (by simp)]
  have htake : (o ++ cp '(' :: b).takeWhile (fun c => decide (c ≠ cp '(')) = o := by
    rw [List.takeWhile_append_of_pos hpos, List.takeWhile_cons_of_neg (by simp), List.append_nil]
  unfold parseMemref
  rw [hdrop, htake]
  constructor
  · intro h
    dsimp only at h
    split_ifs at h with hlast
    obtain ⟨name, rfl⟩ := List.getLast?_eq_some_iff.mp hlast
    rw [List.dropLast_concat] at h
    split at h
    · rename_i hoff hreg
      cases h
      exact ⟨name, rfl, hoff, hreg⟩
    · exact nomatch h
  · rintro ⟨name, rfl, hoff, hreg⟩
    simp [hoff, hreg]

theorem paren_mem_of_parseMemref {names : Vector Text 32} {t : Text} {r : Int × RegIndex}
    (h : parseMemref names t = some r) : cp '(' ∈ t := by
  by_contra hparen
  have hdrop : t.dropWhile (fun c => decide (c ≠ cp '(')) = [] :=
    List.dropWhile_eq_nil_iff.mpr fun c hc => decide_eq_true (ne_of_mem_of_not_mem hc hparen)
  unfold parseMemref at h
  rw [hdrop] at h
  exact nomatch h

/-- `MEMREF` of R325: an offset holds no `(`. -/
theorem parseMemref_eq_some_iff {names : Vector Text 32} (hnames : NamesDistinct names) {t : Text} {off : Int}
    {base : RegIndex} : parseMemref names t = some (off, base) ↔ MemrefToken names t off base := by
  constructor
  · intro h
    obtain ⟨o, b, rfl, ho⟩ := List.eq_append_cons_of_mem (paren_mem_of_parseMemref h)
    obtain ⟨name, rfl, hoff, hreg⟩ := (parseMemref_split_iff ho).mp h
    exact ⟨o, parseOffset_eq_some_iff.mp hoff, by rw [(parseReg_eq_some_iff hnames).mp hreg]⟩
  · rintro ⟨o, hoff, rfl⟩
    have ho : cp '(' ∉ o := fun hmem => absurd (hoff.subset_alphabet hmem) (by decide)
    exact (parseMemref_split_iff ho).mpr
      ⟨_, rfl, parseOffset_eq_some_iff.mpr hoff, (parseReg_eq_some_iff hnames).mpr rfl⟩

/-- Settles O11: the parser answers the grammar `MEMREF`. -/
theorem memoryOperandGrammar : Obligations.MemoryOperandGrammar := by
  intro s tok hnames
  obtain ⟨hok, herror⟩ := orInvalid_of_grammar (tok := tok) (o := parseMemref s.block.regNames tok)
    (P := fun r => MemrefToken s.block.regNames tok r.1 r.2) fun _ => parseMemref_eq_some_iff hnames
  exact ⟨fun off base => hok (off, base), fun h => herror fun r => h r.1 r.2⟩

/-! Numbers as they are written. -/

theorem isDigit_digitChar {base d : Nat} (hbase : base ≤ 16) (hd : d < base) : IsDigit base (cp d.digitChar) d := by
  have hrow : ∀ d < 16, lowerDigits[d]? = some (cp d.digitChar) := by decide
  exact ⟨hd, .inl (hrow d (hd.trans_le hbase))⟩

theorem digitsText_of_lt {base n : Nat} (h : n < base) : digitsText base n = [cp n.digitChar] := by
  rw [digitsText, Nat.toDigits_of_lt_base h]
  rfl

theorem digitsText_of_le {base n : Nat} (hbase : 1 < base) (h : base ≤ n) :
    digitsText base n = digitsText base (n / base) ++ [cp (n % base).digitChar] := by
  simp [digitsText, Nat.toDigits_of_base_le hbase h, chars]

/-- The digits of a number spell it. -/
theorem digits_digitsText {base : Nat} (hlow : 1 < base) (hbase : base ≤ 16) (n : Nat) : Digits base (digitsText base n) n := by
  induction n using Nat.strongRecOn with
  | ind n ih =>
    by_cases hn : n < base
    · rw [digitsText_of_lt hn]
      exact .one (isDigit_digitChar hbase hn)
    · have hrest := ih (n / base) (Nat.div_lt_self (by omega) hlow)
      have hlast := isDigit_digitChar hbase (Nat.mod_lt n (by omega))
      rw [digitsText_of_le hlow (by omega)]
      simpa only [Nat.div_add_mod'] using hrest.more hlast

/-- A positive number has no leading zero. -/
theorem digitsText_head_ne_zero {n : Nat} (h : 0 < n) : ∃ c t, digitsText 10 n = c :: t ∧ c ≠ cp '0' := by
  induction n using Nat.strongRecOn with
  | ind n ih =>
    by_cases hn : n < 10
    · exact ⟨_, [], digitsText_of_lt hn, by interval_cases n <;> decide⟩
    · obtain ⟨c, t, hc, hne⟩ := ih (n / 10) (by omega) (by omega)
      exact ⟨c, _, by rw [digitsText_of_le (by decide) (by omega), hc]; rfl, hne⟩

theorem offBody_decimal (n : Nat) : OffBody (digitsText 10 n) n := by
  rcases Nat.eq_zero_or_pos n with rfl | hn
  · rw [digitsText_of_lt (by decide)]
    exact .zeros (by simp) (List.forall_mem_singleton.mpr rfl)
  · have hdigits := digits_digitsText (by decide) (by decide : 10 ≤ 16) n
    obtain ⟨c, t, htext, hc⟩ := digitsText_head_ne_zero hn
    rw [htext] at hdigits ⊢
    exact .dec hc hdigits

theorem offToken_decimalText (v : Int) : OffToken (decimalText v) v := by
  cases v with
  | ofNat n => exact .plain (offBody_decimal n)
  | negSucc n => exact .minus (offBody_decimal (n + 1))

theorem offToken_hexText (v : Int) : OffToken (hexText v) v := by
  have hbody (n : Nat) : OffBody (cp '0' :: cp 'x' :: digitsText 16 n) n := .hex (digits_digitsText (by decide) le_rfl n)
  cases v with
  | ofNat n => exact .plain (hbody n)
  | negSucc n => exact .minus (hbody (n + 1))

/-- The bodies of `OFF` are among those of `INT` (spec R321, R325). -/
theorem OffBody.intBody {t : Text} {n : Nat} (h : OffBody t n) : IntBody t n := by
  cases h with
  | hex hd => exact .hex (.inl rfl) hd
  | dec hc hd => exact .dec hc hd
  | zeros hne hzeros => exact .zeros hne hzeros

/-- An offset is an integer literal, and a token of a line. -/
theorem OffToken.intToken {t : Text} {v : Int} (h : OffToken t v) : IntToken t v := by
  cases h with
  | plain h => exact .unsigned h.intBody
  | minus h => exact .minus h.intBody

theorem offsetAlphabet_isTokenChar : offsetAlphabet.all isTokenChar = true := by decide

theorem OffToken.isToken {t : Text} {v : Int} (h : OffToken t v) : isToken t = true := by
  have hne : t ≠ [] := by
    rintro rfl
    exact nomatch parseOffset_eq_some_iff.mpr h
  refine Bool.and_eq_true_iff.mpr ⟨by simpa using hne, List.all_eq_true.mpr fun c hc => ?_⟩
  exact List.all_eq_true.mp offsetAlphabet_isTokenChar c (h.subset_alphabet hc)

/-- Settles O12: both spellings are offsets, so they are integer literals and tokens. -/
theorem everyNumberIsWritten : Obligations.EveryNumberIsWritten := by
  intro s v
  have hdec := offToken_decimalText v
  have hhex := offToken_hexText v
  refine ⟨hdec.isToken, hhex.isToken, ?_, ?_, fun hnames base => ⟨?_, ?_⟩⟩
  · exact orInvalid_ok_iff.mpr (parseInt_eq_some_iff.mpr hdec.intToken)
  · exact orInvalid_ok_iff.mpr (parseInt_eq_some_iff.mpr hhex.intToken)
  · exact orInvalid_ok_iff.mpr ((parseMemref_eq_some_iff hnames).mpr ⟨_, hdec, rfl⟩)
  · exact orInvalid_ok_iff.mpr ((parseMemref_eq_some_iff hnames).mpr ⟨_, hhex, rfl⟩)

end Sys2Proof.Machine

/-! # STEP and LOAD as transactions

A step fetches the entry at `pc / 4` and runs the instruction its text decodes to, halts where there is none, and repeats a
fault; LOAD checks its configuration first and leaves the invariant; a run that transfers nowhere passes over the program. -/

namespace Sys2Proof

/-- The class of a decoded line is that of its mnemonic (spec R300). -/
theorem decode_cls {line : Text} {d : Decoded} (h : decode line = some d) : d.cls = classOf d.op := by
  cases htoks : tokenize line with
  | nil => exact nomatch (decode_of_tokenize_eq_nil htoks).symm.trans h
  | cons tok ops =>
    obtain rfl := Option.some.inj ((decode_of_tokenize_eq_cons htoks).symm.trans h)
    rfl

/-- The mnemonic of a well-formed instruction has the class of the instruction's row (spec R304, R330). -/
theorem Instr.classOf_op {i : Instr} (h : i.wf = true) : classOf i.op = i.cls := by
  cases i
  case other op ops => exact (Laws.OpSelects.other op ops h).2
  all_goals rfl

end Sys2Proof

namespace Sys2Proof.Machine

/-! A step at an entry. -/

theorem State.notFaulted_iff {s : State} : s.notFaulted = true ↔ ∀ e i x, s.status ≠ .faulted e i x := by
  unfold State.notFaulted
  cases s.status <;> simp

/-- A line that decodes has an entry (spec R209). -/
theorem exists_entryOf_of_decodeLine {line : Text} {i : Instr} (h : decodeLine line = some i) :
    ∃ e, entryOf line = some e := by
  obtain ⟨d, hd, -⟩ := Option.map_eq_some_iff.mp h
  exact ⟨_, by rw [entryOf, hd]; rfl⟩

/-- The entry of a line carries the line's instruction and its class (spec R209, R304). -/
theorem entryOf_instr {line : Text} {e : Entry} {i : Instr} (he : entryOf line = some e) (hi : decodeLine line = some i) :
    e.instr = i ∧ e.cls = i.cls := by
  obtain ⟨d, hd, rfl⟩ := Option.map_eq_some_iff.mp he
  have hwf : i.wf = true := (decodeIsTotalAndWellFormed line).2 i hi
  obtain rfl : Instr.ofOp d.op d.operands = i := by simpa [decodeLine, hd] using hi
  refine ⟨rfl, (decode_cls hd).trans ?_⟩
  rw [← Instr.classOf_op hwf, Instr.op_ofOp]

theorem step_of_exec_next {s t : State} {e : Entry} (hs : s.notFaulted = true) (hf : s.fetch (s.pc / 4) = some e)
    (hx : exec e.instr (s.tick e.cls) = .next t) : step s = .next (t.setLast (s.pc / 4)) :=
  step_next_iff.mpr (.inl (stepReport_stepped_iff.mpr ⟨State.notFaulted_iff.mp hs, e, t, hf, hx, rfl⟩))

theorem step_of_exec_raise {s : State} {e : Entry} {err : Error} (hs : s.notFaulted = true)
    (hf : s.fetch (s.pc / 4) = some e) (hx : exec e.instr (s.tick e.cls) = .fault (.raise err)) :
    step s = .fault (.ended err (s.pc / 4) e.text (s.enterFault err (s.pc / 4) e.text)) :=
  step_fault_iff.mpr ⟨_, _, _, _,
    stepReport_fault_iff.mpr (.inr ⟨State.notFaulted_iff.mp hs, rfl, e, hf, rfl, hx, rfl⟩), rfl⟩

/-- Settles O35: the fetched entry carries the instruction its text decodes to. -/
theorem stepRunsDecodedInstruction : Obligations.StepRunsDecodedInstruction := by
  intro s e i hs hf he hi
  obtain ⟨rfl, hcls⟩ := entryOf_instr he hi
  rw [← hcls]
  exact ⟨fun t hx => step_of_exec_next hs hf hx, fun err hx => step_of_exec_raise hs hf hx⟩

/-! A word placed where the next step fetches. -/

/-- The place `i` exists after the placing and holds the entry. -/
theorem placeEntry_getElem?_self (prog : List Entry) (i : Nat) (e : Entry) : (placeEntry prog i e)[i]? = some e := by
  unfold placeEntry
  split
  · rename_i h
    exact List.getElem?_set_self h
  · rename_i h
    rw [List.getElem?_append_right (Nat.le_of_not_lt h), List.getElem?_replicate_of_lt (by omega)]

theorem State.withFetchWord_of_entryOf (s : State) {n w : Nat} {x : Text} {e : Entry} (hx : textOfWord n w = some x)
    (he : entryOf x = some e) :
    s.withFetchWord n w = { s with prog := placeEntry s.prog (s.pc / 4) e, status := .running } := by
  simp [State.withFetchWord, placeFetchWord, hx, he]

/-- Settles O36: the placed entry is the decoding of the word's text, so the step runs its instruction. -/
theorem placedWordRunsNext : Obligations.PlacedWordRunsNext := by
  intro s n w i h
  obtain ⟨x, hx, hi⟩ := Option.bind_eq_some_iff.mp h
  obtain ⟨e, he⟩ := exists_entryOf_of_decodeLine hi
  obtain ⟨rfl, hagain, -⟩ := entryOf_some he
  rw [s.withFetchWord_of_entryOf hx he]
  obtain ⟨hnext, hraise⟩ := stepRunsDecodedInstruction
    { s with prog := placeEntry s.prog (s.pc / 4) e, status := .running } e i rfl
    (placeEntry_getElem?_self s.prog (s.pc / 4) e) hagain hi
  exact ⟨hnext, fun err hx => ⟨e.text, hraise err hx⟩, rfl⟩

/-! The end of a run. -/

/-- Past the last entry of a program STEP halts (spec R411). -/
theorem stepReport_at_end {s : State} (hprog : s.prog ≠ []) (hs : s.notFaulted = true) (hend : s.prog.length ≤ s.pc / 4) :
    stepReport s = .noStep s.enterHalt :=
  stepReport_noStep_iff.mpr ⟨State.notFaulted_iff.mp hs, State.fetch_eq_none_iff.mpr hend, hprog, rfl⟩

/-- Settles O37: the halted state has the same program and `pc`, so it is at the end too. -/
theorem haltsAtEndOfProgram : Obligations.HaltsAtEndOfProgram := by
  intro s hprog hs
  refine ⟨fun hend => ?_, fun t h => ?_⟩
  · have hhalt := stepReport_at_end hprog hs hend
    have hagain : stepReport s.enterHalt = .noStep s.enterHalt := stepReport_at_end (s := s.enterHalt) hprog rfl hend
    exact ⟨hhalt, step_next_iff.mpr (.inr hhalt), step_next_iff.mpr (.inr hagain)⟩
  · obtain ⟨-, hf, -⟩ := stepReport_noStep_iff.mp h
    exact State.fetch_eq_none_iff.mp hf

/-- The state a fault leaves has the status Faulted with that fault (spec R410, R415). -/
theorem stepReport_fault_status {s t : State} {err : Error} {i : Nat} {x : Text} (h : stepReport s = .fault err i x t) :
    t.status = .faulted err i x := by
  rcases stepReport_fault_iff.mp h with ⟨hs, rfl⟩ | ⟨-, -, e, -, -, -, rfl⟩
  · exact hs
  · rfl

/-- Settles O39: a Faulted state reports its fault, and a fault leaves a Faulted state. -/
theorem faultIsSticky : Obligations.FaultIsSticky := by
  refine ⟨fun s err i x => stepReport_faulted, fun s after err i x h => ?_⟩
  obtain ⟨_, _, _, _, hreport, heq⟩ := step_fault_iff.mp h
  cases heq
  exact step_fault_iff.mpr ⟨err, i, x, after, stepReport_faulted (stepReport_fault_status hreport), rfl⟩

/-! LOAD. -/

theorem checkConfig_invalid_iff {c : LoadConfig} :
    (∃ item, checkConfig c = .error (.invalidConfiguration item)) ↔
      c.freqHz ≤ 0 ∨ c.weightR < 0 ∨ c.weightI < 0 ∨ c.weightJ < 0 := by
  cases hc : checkConfig c with
  | ok run =>
    obtain ⟨hfreq, hr, hi, hj, -⟩ := checkConfig_ok_iff.mp hc
    simp [hfreq, hr, hi, hj]
  | error e =>
    obtain ⟨item, rfl⟩ := checkConfig_error hc
    refine iff_of_true ⟨item, rfl⟩ ?_
    by_contra hgood
    simp only [not_or, not_le, not_lt] at hgood
    obtain ⟨hfreq, hr, hi, hj⟩ := hgood
    exact nomatch hc.symm.trans (checkConfig_ok_iff.mpr ⟨hfreq, hr, hi, hj, rfl⟩)

/-- Settles O51: no later check of LOAD raises this kind, and none runs before. -/
theorem loadChecksConfigurationFirst : Obligations.LoadChecksConfigurationFirst := by
  intro block lines c
  rw [← checkConfig_invalid_iff]
  refine exists_congr fun item => ⟨fun h => ?_, fun h => bind_error_iff.mpr (.inl h)⟩
  exact (load_error_kind h).resolve_right nofun

/-- A label is bound to at most the number of instruction lines (spec R203, R205). -/
theorem le_of_mem_labelBindings {n : Nat} {lines : List Text} {l : Text × Nat} (h : l ∈ labelBindings n lines) :
    l.2 ≤ n + (lines.filter fun l => !endsWithColon l).length := by
  induction lines generalizing n with
  | nil => exact absurd h List.not_mem_nil
  | cons line lines ih =>
    cases hc : endsWithColon line with
    | true =>
      rw [labelBindings_cons_label hc] at h
      rw [List.filter_cons_of_neg (by simp [hc])]
      rcases List.mem_cons.mp h with rfl | h
      · exact Nat.le_add_right _ _
      · exact ih h
    | false =>
      rw [labelBindings_cons_instr hc] at h
      rw [List.filter_cons_of_pos (by simp [hc]), List.length_cons]
      have hle := ih h
      omega

/-- The state after reset meets the invariant where its program, labels and parameters do (spec R402, R700). -/
theorem State.Inv.loaded {block : Block} {run : RunConfig} {prog : List Entry} {labels : List (Text × Nat)}
    (hprog : (State.loaded block run prog labels).ProgOk) (hparams : (State.loaded block run prog labels).ParamsOk) :
    (State.loaded block run prog labels).Inv where
  regs := { zero := by simp, nodup := by simp, noZero := by simp, bounded := by simp }
  mem := { wf := Memory.reset_wf, cells := by simp, tags := by simp }
  prog := hprog
  pc := { aligned := by simp, inRange := by simp, atEnd := by simp, last := by simp }
  params := hparams

/-- Settles O44: the accepted lines give the clauses on the program, the configuration check the positive frequency. -/
theorem invariantAfterLoad : Obligations.InvariantAfterLoad := by
  intro block lines c s hmem hnames h
  obtain ⟨run, es, hrun, hacc, -, hshort, rfl⟩ := load_ok_iff_accepted.mp h
  obtain ⟨hfreq, -, -, -, rfl⟩ := checkConfig_ok_iff.mp hrun
  refine State.Inv.loaded ⟨hacc.entries, hshort, fun l hl => ?_, ?_⟩ ⟨hmem, hfreq, hnames⟩
  · have hle := le_of_mem_labelBindings hl
    rwa [Nat.zero_add, ← hacc.length_eq] at hle
  · rw [State.loaded_labels, map_fst_labelBindings]
    exact hacc.once

/-! Straight-line runs. -/

theorem State.transfers_of_j {s : State} {e : Entry} {ops : List Text} (h : e.instr = .j ops) : s.transfers e = true := by
  simp [State.transfers, h]

theorem State.transfers_of_beq {s : State} {e : Entry} {rs rt label : Text} {a b : RegIndex}
    (h : e.instr = .beq [rs, rt, label]) (ha : parseReg s.block.regNames rs = some a)
    (hb : parseReg s.block.regNames rt = some b) : s.transfers e = s.regsEqual a b := by
  simp [State.transfers, h, ha, hb]

theorem State.transfers_tick (s : State) (c : Cls) (e : Entry) : (s.tick c).transfers e = s.transfers e := rfl

/-- An instruction that does not transfer control leaves `pc` alone (spec R121, R460). -/
theorem exec_next_pc_of_not_transfers {s t : State} {e : Entry} (h : s.transfers e = false)
    (hx : exec e.instr s = .next t) : t.pc = s.pc := by
  by_cases hj : e.op = text "j"
  · exact nomatch h.symm.trans (State.transfers_of_j (instr_of_op_j hj))
  by_cases hbeq : e.op = text "beq"
  · have hi := instr_of_op_beq hbeq
    rw [hi] at hx
    obtain ⟨rs, rt, label, a, b, hops, ha, hb, ⟨heq, -⟩ | ⟨-, rfl⟩⟩ := execBeq_next_iff.mp hx
    · rw [hops] at hi
      rw [State.transfers_of_beq hi ha hb, State.regsEqual, decide_eq_false_iff_not] at h
      exact absurd heq h
    · rfl
  · rw [← e.instr_op] at hj hbeq
    exact exec_next_pc_eq hj hbeq hx

/-- `t` is `n` entries further than `s` in the same program, the run still in the same status (spec R417). -/
structure Advanced (n : Nat) (s t : State) : Prop where
  status : t.status = s.status
  cycles : t.cycles = s.cycles + n
  prog   : t.prog = s.prog
  pc     : t.pc = s.pc + 4 * n

/-- A step at an entry that does not transfer control goes on to the next one (spec R410). -/
theorem step_advances {s t : State} {e : Entry} (hf : s.fetch (s.pc / 4) = some e) (he : s.transfers e = false)
    (h : step s = .next t) : Advanced 1 s t := by
  rcases step_next_iff.mp h with h | h
  · obtain ⟨-, e', u, hf', hx, rfl⟩ := stepReport_stepped_iff.mp h
    obtain rfl := Option.some.inj (hf.symm.trans hf')
    obtain ⟨hstatus, hcycles, -, -, hprog, -⟩ := exec_next_rest hx
    exact ⟨hstatus, hcycles, hprog, exec_next_pc_of_not_transfers (s.transfers_tick e.cls e ▸ he) hx⟩
  · obtain ⟨-, hnone, -⟩ := stepReport_noStep_iff.mp h
    exact nomatch hf.symm.trans hnone

/-- `n` steps inside the program that transfer nowhere pass over `n` entries (spec R417). -/
theorem run_advances {n : Nat} {s t : State} (hin : s.pc + 4 * n ≤ 4 * s.prog.length)
    (hstraight : ∀ k u e, k < n → Host.Core.run Sys2Proof.core k s = .next u → u.fetch (u.pc / 4) = some e →
      u.transfers e = false)
    (hrun : Host.Core.run Sys2Proof.core n s = .next t) : Advanced n s t := by
  induction n generalizing s with
  | zero =>
    obtain rfl : s = t := Host.Outcome.next.inj hrun
    exact ⟨rfl, rfl, rfl, rfl⟩
  | succ n ih =>
    obtain ⟨u, hstep, hrest⟩ := run_succ_next_iff.mp hrun
    have hlt : s.pc / 4 < s.prog.length := by omega
    have hf : s.fetch (s.pc / 4) = some s.prog[s.pc / 4] := List.getElem?_eq_getElem hlt
    have hfirst := step_advances hf (hstraight 0 s _ n.succ_pos rfl hf) hstep
    have hlast := ih (by rw [hfirst.pc, hfirst.prog]; omega)
      (fun k v e hk hv => hstraight (k + 1) v e (Nat.succ_lt_succ hk) (run_succ_next_iff.mpr ⟨u, hstep, hv⟩)) hrest
    exact ⟨hlast.status.trans hfirst.status, by rw [hlast.cycles, hfirst.cycles]; omega,
      hlast.prog.trans hfirst.prog, by rw [hlast.pc, hfirst.pc]; omega⟩

/-- Settles O52: the run passes over the whole program and stands at its end. -/
theorem straightLineLaw : Obligations.StraightLineLaw := by
  intro block lines c s t hload hstraight hrun
  obtain ⟨run, es, -, -, hpos, -, rfl⟩ := load_ok_iff_accepted.mp hload
  obtain ⟨hstatus, hcycles, hprog, hpc⟩ := run_advances (by simp) hstraight hrun
  simp only [State.loaded_status, State.loaded_cycles, State.loaded_prog, State.loaded_pc, Nat.zero_add]
    at hstatus hcycles hprog hpc
  refine ⟨hcycles, hpc, stepReport_at_end ?_ ?_ ?_⟩
  · rw [hprog]; exact List.ne_nil_of_length_pos hpos
  · rw [State.notFaulted_iff, hstatus]; nofun
  · rw [hprog, hpc]; omega

/-! The observations. -/

/-- Settles O60: an observation is refused by the empty store alone, and the rows are the entries with their indices. -/
theorem programSnapshotRows : Obligations.ProgramSnapshotRows := by
  intro s
  have hanswer (h : s.prog ≠ []) (q : Query) : s.observe q = .ok (s.report q) := State.observe_ok_iff.mpr ⟨h, rfl⟩
  refine ⟨fun h q => State.observe_error_iff.mpr ⟨h, rfl⟩, fun h => ⟨fun q => ⟨_, hanswer h q⟩, hanswer h _⟩, ?_, fun i e he => ?_⟩
  · simp [State.programSnapshot]
  · rw [State.fetch] at he
    simp [State.programSnapshot, he]

end Sys2Proof.Machine

/-! # The load-immediate family

The error each of `li` and `la` raises, beside `execLi_next_iff` and `execLa_next_iff`, which say when they go on; the whole
rule of each is the two together with what a register write does. -/

namespace Sys2Proof.Machine

theorem settle_raise_iff {x : Except Error State} {e : Error} : settle x = .fault (.raise e) ↔ x = .error e := by
  simp [settle_fault_iff]

theorem State.target_error_iff {s : State} {name : Text} {e : Error} :
    s.target name = .error e ↔ lookupKey name s.labels = none ∧ e = .undefinedLabel name := by
  rw [State.target_eq]
  cases lookupKey name s.labels <;> simp [eq_comm]

/-- A token outside `INT` and outside the label table is the one error of `NUMLAB` (spec R324, R206). -/
theorem State.numlabOperand_error_iff {s : State} {tok : Text} {e : Error} :
    s.numlabOperand tok = .error e ↔
      parseInt tok = none ∧ lookupKey tok s.labels = none ∧ e = .undefinedLabel tok := by
  cases hint : parseInt tok with
  | some v => simp [State.numlabOperand, hint]
  | none => simp [State.numlabOperand, hint, bind_error_iff, State.target_error_iff]

theorem State.numlabOperand_of_parseInt {s : State} {tok : Text} {v : Int} (h : parseInt tok = some v) :
    s.numlabOperand tok = .ok v := by
  rw [State.numlabOperand, h]

theorem State.numlabOperand_of_label {s : State} {tok : Text} {k : Nat} (hint : parseInt tok = none)
    (hk : lookupKey tok s.labels = some k) : s.numlabOperand tok = .ok (4 * k) := by
  rw [State.numlabOperand, hint, State.target_eq, hk]
  rfl

/-! `li`. -/

theorem execLi_of_length_ne {ops : List Text} (s : State) (h : ops.length ≠ 2) :
    execLi ops s = .fault (.raise (.operandCount (text "li") ops)) := by
  unfold execLi
  split
  · exact absurd rfl h
  · rfl

/-- With two operands the leftmost one that does not parse is reported (spec R421). -/
theorem execLi_pair_raise_iff {s : State} {rd imm : Text} {e : Error} :
    execLi [rd, imm] s = .fault (.raise e) ↔
      (parseReg s.block.regNames rd = none ∧ e = .invalidOperand rd) ∨
      ∃ d, parseReg s.block.regNames rd = some d ∧ parseImm imm = none ∧ e = .invalidOperand imm := by
  simp only [execLi, settle_raise_iff, bind_error_iff, State.regOperand, immOperand, orInvalid_error_iff,
    orInvalid_ok_iff, reduceCtorEq, and_false, exists_false, or_false]

/-- Settles O21: the two operands are parsed from the left, and the value is written. -/
theorem liRule : Obligations.LiRule := by
  intro s ops
  refine ⟨⟨rfl, rfl⟩, execLi_of_length_ne s, ?_⟩
  rintro rd imm rfl
  refine ⟨fun hrd => execLi_pair_raise_iff.mpr (.inl ⟨hrd, rfl⟩), fun d hd => ⟨fun himm => ?_, fun v hv => ?_⟩⟩
  · exact execLi_pair_raise_iff.mpr (.inr ⟨d, hd, himm, rfl⟩)
  · exact ⟨s.writeReg d v, execLi_next_iff.mpr ⟨rd, imm, d, v, rfl, hd, hv, rfl⟩, s.regWritten_writeReg d v⟩

/-! `la`. -/

theorem execLa_of_length_ne {ops : List Text} (s : State) (h : ops.length ≠ 2) :
    execLa ops s = .fault (.raise (.operandCount (text "la") ops)) := by
  unfold execLa
  split
  · exact absurd rfl h
  · rfl

/-- With two operands the destination is looked at before the label is resolved (spec R426). -/
theorem execLa_pair_raise_iff {s : State} {rd x : Text} {e : Error} :
    execLa [rd, x] s = .fault (.raise e) ↔
      (parseReg s.block.regNames rd = none ∧ e = .invalidOperand rd) ∨
      ∃ d, parseReg s.block.regNames rd = some d ∧
        parseInt x = none ∧ lookupKey x s.labels = none ∧ e = .undefinedLabel x := by
  simp only [execLa, settle_raise_iff, bind_error_iff, State.regOperand, State.numlabOperand_error_iff,
    orInvalid_error_iff, orInvalid_ok_iff, reduceCtorEq, and_false, exists_false, or_false]

/-- `la` writes the value of its second operand. -/
theorem execLa_pair_next {s : State} {rd x : Text} {d : RegIndex} {v : Int} (hd : parseReg s.block.regNames rd = some d)
    (hv : s.numlabOperand x = .ok v) : ∃ t, execLa [rd, x] s = .next t ∧ RegWritten s t d v :=
  ⟨s.writeReg d v, execLa_next_iff.mpr ⟨rd, x, d, v, rfl, hd, hv, rfl⟩, s.regWritten_writeReg d v⟩

/-- Settles O22: a number and a bound label are both values of the second operand, an unbound label its one error. -/
theorem laRule : Obligations.LaRule := by
  intro s ops
  refine ⟨⟨rfl, rfl⟩, execLa_of_length_ne s, ?_⟩
  rintro rd x rfl
  refine ⟨fun hrd => execLa_pair_raise_iff.mpr (.inl ⟨hrd, rfl⟩), fun d hd =>
    ⟨fun v hv => ?_, fun hint => ⟨fun hfree => ?_, fun k hk => ?_⟩⟩⟩
  · exact execLa_pair_next hd (State.numlabOperand_of_parseInt hv)
  · exact execLa_pair_raise_iff.mpr (.inr ⟨d, hd, hint, hfree, rfl⟩)
  · exact execLa_pair_next hd (State.numlabOperand_of_label hint hk)

end Sys2Proof.Machine

/-! # The arithmetic family

`add` and `addi` parse two register operands before the third; where the error of the first two comes from is said once. The
error each raises stands beside `execAdd_next_iff` and `execAddi_next_iff`, which say when they go on. -/

namespace Sys2Proof.Machine

/-- Two register operands in front of a computation: the leftmost one that names no register is reported, and the rest is
computed only when both name one (spec R312). -/
theorem State.regOperand_pair_error_iff {α : Type} {s : State} {rd rs : Text} {f : RegIndex → RegIndex → Except Error α}
    {e : Error} :
    (s.regOperand rd >>= fun d => s.regOperand rs >>= f d) = .error e ↔
      (parseReg s.block.regNames rd = none ∧ e = .invalidOperand rd) ∨
      ∃ d, parseReg s.block.regNames rd = some d ∧
        ((parseReg s.block.regNames rs = none ∧ e = .invalidOperand rs) ∨
          ∃ a, parseReg s.block.regNames rs = some a ∧ f d a = .error e) := by
  simp only [bind_error_iff, State.regOperand, orInvalid_error_iff, orInvalid_ok_iff]

/-! `add`. -/

theorem execAdd_of_length_ne {ops : List Text} (s : State) (h : ops.length ≠ 3) :
    execAdd ops s = .fault (.raise (.operandCount (text "add") ops)) := by
  unfold execAdd
  split
  · exact absurd rfl h
  · rfl

/-- With three operands the leftmost one that names no register is reported (spec R441). -/
theorem execAdd_triple_raise_iff {s : State} {rd rs rt : Text} {e : Error} :
    execAdd [rd, rs, rt] s = .fault (.raise e) ↔
      (parseReg s.block.regNames rd = none ∧ e = .invalidOperand rd) ∨
      ∃ d, parseReg s.block.regNames rd = some d ∧
        ((parseReg s.block.regNames rs = none ∧ e = .invalidOperand rs) ∨
          ∃ a, parseReg s.block.regNames rs = some a ∧
            parseReg s.block.regNames rt = none ∧ e = .invalidOperand rt) := by
  rw [execAdd, settle_raise_iff, State.regOperand_pair_error_iff]
  simp only [bind_error_iff, State.regOperand, orInvalid_error_iff, reduceCtorEq, and_false, exists_false, or_false]

/-- Settles O23: the three operands are parsed from the left, and the sum of the sources is written. -/
theorem addRule : Obligations.AddRule := by
  intro s ops
  refine ⟨⟨rfl, rfl⟩, execAdd_of_length_ne s, ?_⟩
  rintro rd rs rt rfl
  refine ⟨fun hrd => execAdd_triple_raise_iff.mpr (.inl ⟨hrd, rfl⟩), fun d hd =>
    ⟨fun hrs => ?_, fun a ha => ⟨fun hrt => ?_, fun b hb => ?_⟩⟩⟩
  · exact execAdd_triple_raise_iff.mpr (.inr ⟨d, hd, .inl ⟨hrs, rfl⟩⟩)
  · exact execAdd_triple_raise_iff.mpr (.inr ⟨d, hd, .inr ⟨a, ha, hrt, rfl⟩⟩)
  · exact ⟨s.writeReg d (s.readReg a + s.readReg b),
      execAdd_next_iff.mpr ⟨rd, rs, rt, d, a, b, rfl, hd, ha, hb, rfl⟩, s.regWritten_writeReg d _⟩

/-! `addi`. -/

theorem execAddi_of_length_ne {ops : List Text} (s : State) (h : ops.length ≠ 3) :
    execAddi ops s = .fault (.raise (.operandCount (text "addi") ops)) := by
  unfold execAddi
  split
  · exact absurd rfl h
  · rfl

/-- With three operands the leftmost one that does not parse is reported (spec R446). -/
theorem execAddi_triple_raise_iff {s : State} {rd rs imm : Text} {e : Error} :
    execAddi [rd, rs, imm] s = .fault (.raise e) ↔
      (parseReg s.block.regNames rd = none ∧ e = .invalidOperand rd) ∨
      ∃ d, parseReg s.block.regNames rd = some d ∧
        ((parseReg s.block.regNames rs = none ∧ e = .invalidOperand rs) ∨
          ∃ a, parseReg s.block.regNames rs = some a ∧ parseInt imm = none ∧ e = .invalidOperand imm) := by
  rw [execAddi, settle_raise_iff, State.regOperand_pair_error_iff]
  simp only [bind_error_iff, intOperand, orInvalid_error_iff, reduceCtorEq, and_false, exists_false, or_false]

/-- Settles O24: the three operands are parsed from the left, and the sum of the source and the immediate is written. -/
theorem addiRule : Obligations.AddiRule := by
  intro s ops
  refine ⟨⟨rfl, rfl⟩, execAddi_of_length_ne s, ?_⟩
  rintro rd rs imm rfl
  refine ⟨fun hrd => execAddi_triple_raise_iff.mpr (.inl ⟨hrd, rfl⟩), fun d hd =>
    ⟨fun hrs => ?_, fun a ha => ⟨fun himm => ?_, fun m hm => ?_⟩⟩⟩
  · exact execAddi_triple_raise_iff.mpr (.inr ⟨d, hd, .inl ⟨hrs, rfl⟩⟩)
  · exact execAddi_triple_raise_iff.mpr (.inr ⟨d, hd, .inr ⟨a, ha, himm, rfl⟩⟩)
  · exact ⟨s.writeReg d (s.readReg a + m),
      execAddi_next_iff.mpr ⟨rd, rs, imm, d, a, m, rfl, hd, ha, hm, rfl⟩, s.regWritten_writeReg d _⟩

end Sys2Proof.Machine

/-! # The control-transfer family

The error each of `j` and `beq` raises, beside `execJ_next_iff` and `execBeq_next_iff`, which say when they go on; a next
state of either is the given one with `pc` set, so the frame is that of `State.setPc`. -/

namespace Sys2Proof.Machine

/-! `j`. -/

theorem execJ_of_length_ne {ops : List Text} (s : State) (h : ops.length ≠ 1) :
    execJ ops s = .fault (.raise (.operandCount (text "j") ops)) := by
  unfold execJ
  split
  · exact absurd rfl h
  · rfl

/-- With one operand an unbound label is the only error (spec R461, R206). -/
theorem execJ_single_raise_iff {s : State} {label : Text} {e : Error} :
    execJ [label] s = .fault (.raise e) ↔ lookupKey label s.labels = none ∧ e = .undefinedLabel label := by
  simp only [execJ, settle_raise_iff, bind_error_iff, State.target_error_iff, reduceCtorEq, and_false, exists_false,
    or_false]

/-- Settles O25: a bound label sets `pc`, an unbound one is the only error of one operand. -/
theorem jRule : Obligations.JRule := by
  intro s ops
  refine ⟨⟨rfl, rfl⟩, execJ_of_length_ne s, ?_⟩
  rintro label rfl
  exact ⟨fun hfree => execJ_single_raise_iff.mpr ⟨hfree, rfl⟩,
    fun k hk => execJ_next_iff.mpr ⟨label, k, rfl, hk, rfl⟩⟩

/-! `beq`. -/

theorem execBeq_of_length_ne {ops : List Text} (s : State) (h : ops.length ≠ 3) :
    execBeq ops s = .fault (.raise (.operandCount (text "beq") ops)) := by
  unfold execBeq
  split
  · exact absurd rfl h
  · rfl

/-- With three operands the leftmost source that names no register is reported, and the label is looked at only when the
two registers are equal (spec R462). -/
theorem execBeq_triple_raise_iff {s : State} {rs rt label : Text} {e : Error} :
    execBeq [rs, rt, label] s = .fault (.raise e) ↔
      (parseReg s.block.regNames rs = none ∧ e = .invalidOperand rs) ∨
      ∃ a, parseReg s.block.regNames rs = some a ∧
        ((parseReg s.block.regNames rt = none ∧ e = .invalidOperand rt) ∨
          ∃ b, parseReg s.block.regNames rt = some b ∧
            s.readReg a = s.readReg b ∧ lookupKey label s.labels = none ∧ e = .undefinedLabel label) := by
  have hbranch (a b : RegIndex) :
      ((if s.regsEqual a b then s.target label >>= fun t => .ok (s.setPc t) else .ok s : Except Error State) = .error e) ↔
        s.readReg a = s.readReg b ∧ lookupKey label s.labels = none ∧ e = .undefinedLabel label := by
    by_cases h : s.readReg a = s.readReg b
    · simp [State.regsEqual, h, bind_error_iff, State.target_error_iff]
    · simp [State.regsEqual, h]
  rw [execBeq, settle_raise_iff, State.regOperand_pair_error_iff]
  simp only [hbranch]

/-- Settles O26: the sources are parsed from the left, and equal registers make the rest the rule of `j`. -/
theorem beqRule : Obligations.BeqRule := by
  intro s ops
  refine ⟨⟨rfl, rfl⟩, execBeq_of_length_ne s, ?_⟩
  rintro rs rt label rfl
  refine ⟨fun hrs => execBeq_triple_raise_iff.mpr (.inl ⟨hrs, rfl⟩), fun a ha =>
    ⟨fun hrt => ?_, fun b hb => ⟨fun hne => ?_, fun heq => ⟨fun hfree => ?_, fun k hk => ?_⟩⟩⟩⟩
  · exact execBeq_triple_raise_iff.mpr (.inr ⟨a, ha, .inl ⟨hrt, rfl⟩⟩)
  · exact execBeq_next_iff.mpr ⟨rs, rt, label, a, b, rfl, ha, hb, .inr ⟨hne, rfl⟩⟩
  · exact execBeq_triple_raise_iff.mpr (.inr ⟨a, ha, .inr ⟨b, hb, heq, hfree, rfl⟩⟩)
  · exact execBeq_next_iff.mpr ⟨rs, rt, label, a, b, rfl, ha, hb, .inl ⟨heq, k, hk, rfl⟩⟩

/-! The frame. -/

/-- Where `j` or `beq` goes on, it has written `pc` and nothing else (spec R460). -/
theorem exec_next_setPc {i : Instr} {ops : List Text} {s t : State} (hi : i = .j ops ∨ i = .beq ops)
    (h : exec i s = .next t) : ∃ p, t = s.setPc p := by
  rcases hi with rfl | rfl
  · obtain ⟨-, k, -, -, rfl⟩ := execJ_next_iff.mp h
    exact ⟨4 * k, rfl⟩
  · obtain ⟨-, -, -, -, -, -, -, -, ⟨-, k, -, rfl⟩ | ⟨-, rfl⟩⟩ := execBeq_next_iff.mp h
    · exact ⟨4 * k, rfl⟩
    · exact ⟨t.pc, rfl⟩

/-- Settles O32: a write of `pc` leaves every other component. -/
theorem controlTransferFrame : Obligations.ControlTransferFrame := by
  intro s t ops i hi h
  obtain ⟨p, rfl⟩ := exec_next_setPc hi h
  exact ⟨State.readReg_congr (s.setPc_regs p), s.setPc_recency p,
    ⟨s.setPc_status p, s.setPc_cycles p, s.setPc_weighted p, s.setPc_last p⟩,
    fun a => congrArg (Memory.byte · a) (s.setPc_mem p), fun a => congrArg (Memory.tag · a) (s.setPc_mem p),
    ⟨s.setPc_prog p, s.setPc_labels p, s.setPc_block p, s.setPc_config p⟩⟩

end Sys2Proof.Machine

/-! # The store family

`sw` and `sb` parse the same two operands and end in one `MemWrite`; they differ in the size and in the value. The error each
raises stands beside `execSw_next_iff` and `execSb_next_iff`, which say when they go on; what the write does is
`integerWriteRule`. -/

namespace Sys2Proof.Machine

/-- A register and a memory operand in front of a write: the leftmost one that does not parse is reported, and the write is
tried only when both parse (spec R312, R480). -/
theorem State.storeOperands_error_iff {α : Type} {s : State} {rt m : Text}
    {f : RegIndex → Int × RegIndex → Except Error α} {e : Error} :
    (s.regOperand rt >>= fun r => s.memrefOperand m >>= f r) = .error e ↔
      (parseReg s.block.regNames rt = none ∧ e = .invalidOperand rt) ∨
      ∃ r, parseReg s.block.regNames rt = some r ∧
        ((parseMemref s.block.regNames m = none ∧ e = .invalidOperand m) ∨
          ∃ ref, parseMemref s.block.regNames m = some ref ∧ f r ref = .error e) := by
  simp only [bind_error_iff, State.regOperand, State.memrefOperand, orInvalid_error_iff, orInvalid_ok_iff]

theorem not_inBounds_iff {memSize : Nat} {a : Int} {n : Size} :
    ¬ InBounds memSize a n ↔ a < 0 ∨ (memSize : Int) < a + n.bytes := by
  simp only [InBounds, not_and_or, not_le]

/-! `sw`. -/

theorem execSw_of_length_ne {ops : List Text} (s : State) (h : ops.length ≠ 2) :
    execSw ops s = .fault (.raise (.operandCount (text "sw") ops)) := by
  unfold execSw
  split
  · exact absurd rfl h
  · rfl

/-- With two operands that parse, the only error is that of the write (spec R481). -/
theorem execSw_pair_raise_iff {s : State} {rt m : Text} {e : Error} :
    execSw [rt, m] s = .fault (.raise e) ↔
      (parseReg s.block.regNames rt = none ∧ e = .invalidOperand rt) ∨
      ∃ r, parseReg s.block.regNames rt = some r ∧
        ((parseMemref s.block.regNames m = none ∧ e = .invalidOperand m) ∨
          ∃ ref, parseMemref s.block.regNames m = some ref ∧
            s.memWrite (s.effectiveAddress ref) .word (s.readReg r) = .error e) := by
  rw [execSw, settle_raise_iff, State.storeOperands_error_iff]

/-- What a register reads lies in the signed range of a word (spec R103). -/
theorem State.fitsSigned_readReg (s : State) (r : RegIndex) : FitsSigned .word (s.readReg r) := by
  by_cases hr : r = 0
  · rw [hr, State.readReg_zero]
    decide
  · rw [State.readReg_of_ne s hr]
    exact ⟨BitVec.le_toInt _, BitVec.toInt_lt⟩

/-- Settles O27: a register always fits a word, so neither value of the parameter makes the write a mismatch. -/
theorem swRule : Obligations.SwRule := by
  intro s ops
  refine ⟨⟨rfl, rfl⟩, execSw_of_length_ne s, ?_⟩
  rintro rt m rfl
  refine ⟨fun hrt => execSw_pair_raise_iff.mpr (.inl ⟨hrt, rfl⟩), fun r hr => ⟨fun hm => ?_, ?_⟩⟩
  · exact execSw_pair_raise_iff.mpr (.inr ⟨r, hr, .inl ⟨hm, rfl⟩⟩)
  rintro off base ea href rfl
  obtain ⟨hraise, hwrite⟩ := integerWriteRule s (s.readReg base + off) .word (s.readReg r)
  refine ⟨fun hout => ?_, fun hin => ?_⟩
  · have hout' : ¬ InBounds s.block.memSize (s.readReg base + off) .word := not_inBounds_iff.mpr hout
    exact execSw_pair_raise_iff.mpr (.inr ⟨r, hr, .inr ⟨_, href, hraise hout'⟩⟩)
  · obtain ⟨t, ht, hwritten⟩ := (hwrite hin).2 (.inl (s.fitsSigned_readReg r))
    exact ⟨t, execSw_next_iff.mpr ⟨rt, m, r, _, rfl, hr, href, ht⟩, hwritten⟩

/-! `sb`. -/

theorem execSb_of_length_ne {ops : List Text} (s : State) (h : ops.length ≠ 2) :
    execSb ops s = .fault (.raise (.operandCount (text "sb") ops)) := by
  unfold execSb
  split
  · exact absurd rfl h
  · rfl

/-- With two operands that parse, the only error is that of the write (spec R486). -/
theorem execSb_pair_raise_iff {s : State} {rt m : Text} {e : Error} :
    execSb [rt, m] s = .fault (.raise e) ↔
      (parseReg s.block.regNames rt = none ∧ e = .invalidOperand rt) ∨
      ∃ r, parseReg s.block.regNames rt = some r ∧
        ((parseMemref s.block.regNames m = none ∧ e = .invalidOperand m) ∨
          ∃ ref, parseMemref s.block.regNames m = some ref ∧
            s.memWrite (s.effectiveAddress ref) .byte (u32 (s.readReg r) % 256) = .error e) := by
  rw [execSb, settle_raise_iff, State.storeOperands_error_iff]

/-- A value in `[0, 255]` lies in the signed range of a byte exactly below 128 (spec R222, R486). -/
theorem fitsSigned_byte_emod_iff (v : Int) : FitsSigned .byte (v % 256) ↔ v % 256 < 128 := by
  simp only [FitsSigned, Size.bytes]
  omega

/-- Settles O28: the value stored is never negative, so it misses the signed range exactly from 128 on. -/
theorem sbRule : Obligations.SbRule := by
  intro s ops
  refine ⟨⟨rfl, rfl⟩, execSb_of_length_ne s, ?_⟩
  rintro rt m rfl
  refine ⟨fun hrt => execSb_pair_raise_iff.mpr (.inl ⟨hrt, rfl⟩), fun r hr => ⟨fun hm => ?_, ?_⟩⟩
  · exact execSb_pair_raise_iff.mpr (.inr ⟨r, hr, .inl ⟨hm, rfl⟩⟩)
  rintro off base ea v href rfl rfl
  obtain ⟨hraise, hwrite⟩ := integerWriteRule s (s.readReg base + off) .byte (u32 (s.readReg r) % 256)
  rw [fitsSigned_byte_emod_iff, not_lt] at hwrite
  refine ⟨fun hout => ?_, fun hin => ⟨fun hbig => ?_, fun hfits => ?_⟩⟩
  · have hout' : ¬ InBounds s.block.memSize (s.readReg base + off) .byte :=
      not_inBounds_iff.mpr (hout.imp_right Int.lt_add_one_of_le)
    exact execSb_pair_raise_iff.mpr (.inr ⟨r, hr, .inr ⟨_, href, hraise hout'⟩⟩)
  · exact execSb_pair_raise_iff.mpr (.inr ⟨r, hr, .inr ⟨_, href, (hwrite hin).1 hbig⟩⟩)
  · obtain ⟨t, ht, hwritten⟩ := (hwrite hin).2 hfits
    exact ⟨t, execSb_next_iff.mpr ⟨rt, m, r, _, rfl, hr, href, ht⟩, hwritten⟩

/-! The frame. -/

/-- Where `sw` or `sb` goes on, it has written its size at the effective address of its second operand, and nothing else
(spec R480). -/
theorem exec_next_memWrite {i : Instr} {n : Size} {ops : List Text} {s t : State}
    (hi : (i = .sw ops ∧ n = .word) ∨ (i = .sb ops ∧ n = .byte)) (h : exec i s = .next t) :
    ∃ rt m ref v, ops = [rt, m] ∧ parseMemref s.block.regNames m = some ref ∧
      s.memWrite (s.effectiveAddress ref) n v = .ok t := by
  rcases hi with ⟨rfl, rfl⟩ | ⟨rfl, rfl⟩
  · obtain ⟨rt, m, r, ref, hops, -, href, hw⟩ := execSw_next_iff.mp h
    exact ⟨rt, m, ref, _, hops, href, hw⟩
  · obtain ⟨rt, m, r, ref, hops, -, href, hw⟩ := execSb_next_iff.mp h
    exact ⟨rt, m, ref, _, hops, href, hw⟩

/-- Settles O33: the frame of the one write, at an address that is not negative because it is in bounds. -/
theorem storeFrame : Obligations.StoreFrame := by
  intro s t ops i n hi h
  obtain ⟨rt, m, ref, v, hops, href, hw⟩ := exec_next_memWrite hi h
  obtain ⟨-, houtside, -, hothers, -⟩ := State.memWrite_effect hw
  obtain ⟨hin, -, rfl⟩ := State.memWrite_ok_iff.mp hw
  have hnonneg : 0 ≤ s.effectiveAddress ref := hin.1
  refine ⟨rt, m, ref, hops, href, hin, State.readReg_congr rfl, rfl, ⟨rfl, rfl, rfl, rfl, rfl⟩, fun b hb => ?_,
    fun b hb => ?_, ⟨rfl, rfl, rfl, rfl⟩⟩
  · exact houtside b (by omega)
  · exact hothers b (by omega)

end Sys2Proof.Machine

/-! # The timed no-ops

The five arms that examine no operand are one instruction, `timedNoOp`; it goes on with the state it was given
(`timedNoOp_eq`). -/

namespace Sys2Proof

/-- Every mnemonic that is given class J or R has a row of its own, so one without a row has class I (spec R304, R502). -/
theorem classOf_eq_i_of_notMem_namedOps {op : Text} (h : op ∉ namedOps) : classOf op = .i := by
  have hsub : [text "j", text "jal", text "add", text "sub", text "and", text "or"] ⊆ namedOps := by decide
  exact classOf_eq_i fun hop => h (hsub hop)

/-- A line whose mnemonic has no row is the other-instruction of that mnemonic (spec R330, R502). -/
theorem decodeLine_of_notMem_namedOps {line tok : Text} {ops : List Text} (htoks : tokenize line = tok :: ops)
    (h : asciiLower tok ∉ namedOps) : decodeLine line = some (.other (asciiLower tok) ops) := by
  rw [decodeLine_of_tokenize_eq_cons htoks, Instr.ofOp_other h]

end Sys2Proof

namespace Sys2Proof.Machine

/-- The dispatch sends each of the five to `timedNoOp`, without its operands (spec R501, R502). -/
theorem exec_eq_next_of_timedNoOp {i : Instr} {ops : List Text} (s : State)
    (hi : i = .jal ops ∨ i = .sub ops ∨ i = .and ops ∨ i = .or ops ∨ ∃ op, i = .other op ops) : exec i s = .next s := by
  rcases hi with rfl | rfl | rfl | rfl | ⟨op, rfl⟩ <;> exact timedNoOp_eq s

/-- Settles O30: no row claims the mnemonic, neither in the decoder nor in the table of classes, and the arm that is left
is a timed no-op. -/
theorem unknownMnemonicRule : Obligations.UnknownMnemonicRule := by
  intro s line tok ops htoks hop
  have hexec : exec (.other (asciiLower tok) ops) s = .next s :=
    exec_eq_next_of_timedNoOp s (.inr (.inr (.inr (.inr ⟨_, rfl⟩))))
  exact ⟨decodeLine_of_notMem_namedOps htoks hop, classOf_eq_i_of_notMem_namedOps hop, hexec⟩

/-- Settles O29: all four are timed no-ops, and the class is that of the constructor. -/
theorem classifiedNoOpsRule : Obligations.ClassifiedNoOpsRule := by
  intro s ops
  refine ⟨⟨?jal, rfl⟩, ⟨?sub, rfl⟩, ⟨?and, rfl⟩, ⟨?or, rfl⟩⟩
  case jal => exact exec_eq_next_of_timedNoOp s (.inl rfl)
  case sub => exact exec_eq_next_of_timedNoOp s (.inr (.inl rfl))
  case and => exact exec_eq_next_of_timedNoOp s (.inr (.inr (.inl rfl)))
  case or => exact exec_eq_next_of_timedNoOp s (.inr (.inr (.inr (.inl rfl))))

end Sys2Proof.Machine

/-! # The errors an instruction raises

Which kinds each of the eight instructions with an operand grammar can raise, from the iff beside its rule that says when it
raises what. A wrong operand count is `InvalidOperandFormat` for all eight. -/

namespace Sys2Proof.Machine

/-- An instruction that answers a count other than `n` with the count error (spec R311) raises `InvalidOperandFormat`, or has
`n` operands. -/
theorem invalidOperandFormat_or_length_eq {x : Answer} {op : Text} {ops : List Text} {n : Nat} {e : Error}
    (hcount : ops.length ≠ n → x = .fault (.raise (.operandCount op ops))) (h : x = .fault (.raise e)) :
    e.kind = .invalidOperandFormat ∨ ops.length = n := by
  by_cases hlen : ops.length = n
  · exact .inr hlen
  · cases (hcount hlen).symm.trans h
    exact .inl rfl

/-! The instructions that only parse their operands. -/

theorem execLi_raise_kind {ops : List Text} {s : State} {e : Error} (h : execLi ops s = .fault (.raise e)) :
    e.kind = .invalidOperandFormat := by
  obtain hkind | hlen := invalidOperandFormat_or_length_eq (execLi_of_length_ne s) h
  · exact hkind
  obtain ⟨rd, imm, rfl⟩ := List.length_eq_two.mp hlen
  obtain ⟨-, rfl⟩ | ⟨-, -, -, rfl⟩ := execLi_pair_raise_iff.mp h
  · rfl
  · rfl

theorem execAdd_raise_kind {ops : List Text} {s : State} {e : Error} (h : execAdd ops s = .fault (.raise e)) :
    e.kind = .invalidOperandFormat := by
  obtain hkind | hlen := invalidOperandFormat_or_length_eq (execAdd_of_length_ne s) h
  · exact hkind
  obtain ⟨rd, rs, rt, rfl⟩ := List.length_eq_three.mp hlen
  obtain ⟨-, rfl⟩ | ⟨-, -, ⟨-, rfl⟩ | ⟨-, -, -, rfl⟩⟩ := execAdd_triple_raise_iff.mp h
  · rfl
  · rfl
  · rfl

theorem execAddi_raise_kind {ops : List Text} {s : State} {e : Error} (h : execAddi ops s = .fault (.raise e)) :
    e.kind = .invalidOperandFormat := by
  obtain hkind | hlen := invalidOperandFormat_or_length_eq (execAddi_of_length_ne s) h
  · exact hkind
  obtain ⟨rd, rs, imm, rfl⟩ := List.length_eq_three.mp hlen
  obtain ⟨-, rfl⟩ | ⟨-, -, ⟨-, rfl⟩ | ⟨-, -, -, rfl⟩⟩ := execAddi_triple_raise_iff.mp h
  · rfl
  · rfl
  · rfl

/-! The instructions that resolve a label. -/

theorem execLa_raise_kind {ops : List Text} {s : State} {e : Error} (h : execLa ops s = .fault (.raise e)) :
    e.kind = .undefinedLabel ∨ e.kind = .invalidOperandFormat := by
  obtain hkind | hlen := invalidOperandFormat_or_length_eq (execLa_of_length_ne s) h
  · exact .inr hkind
  obtain ⟨rd, x, rfl⟩ := List.length_eq_two.mp hlen
  obtain ⟨-, rfl⟩ | ⟨-, -, -, -, rfl⟩ := execLa_pair_raise_iff.mp h
  · exact .inr rfl
  · exact .inl rfl

theorem execJ_raise_kind {ops : List Text} {s : State} {e : Error} (h : execJ ops s = .fault (.raise e)) :
    e.kind = .undefinedLabel ∨ e.kind = .invalidOperandFormat := by
  obtain hkind | hlen := invalidOperandFormat_or_length_eq (execJ_of_length_ne s) h
  · exact .inr hkind
  obtain ⟨label, rfl⟩ := List.length_eq_one_iff.mp hlen
  obtain ⟨-, rfl⟩ := execJ_single_raise_iff.mp h
  exact .inl rfl

theorem execBeq_raise_kind {ops : List Text} {s : State} {e : Error} (h : execBeq ops s = .fault (.raise e)) :
    e.kind = .undefinedLabel ∨ e.kind = .invalidOperandFormat := by
  obtain hkind | hlen := invalidOperandFormat_or_length_eq (execBeq_of_length_ne s) h
  · exact .inr hkind
  obtain ⟨rs, rt, label, rfl⟩ := List.length_eq_three.mp hlen
  obtain ⟨-, rfl⟩ | ⟨-, -, ⟨-, rfl⟩ | ⟨-, -, -, -, rfl⟩⟩ := execBeq_triple_raise_iff.mp h
  · exact .inr rfl
  · exact .inr rfl
  · exact .inl rfl

/-! The stores. -/

/-- A register never misses the signed range of a word, so `sw` raises no mismatch (spec R225). -/
theorem execSw_raise_kind {ops : List Text} {s : State} {e : Error} (h : execSw ops s = .fault (.raise e)) :
    e.kind = .invalidOperandFormat ∨ e.kind = .outOfBounds := by
  obtain hkind | hlen := invalidOperandFormat_or_length_eq (execSw_of_length_ne s) h
  · exact .inl hkind
  obtain ⟨rt, m, rfl⟩ := List.length_eq_two.mp hlen
  obtain ⟨-, rfl⟩ | ⟨r, -, ⟨-, rfl⟩ | ⟨ref, -, hwrite⟩⟩ := execSw_pair_raise_iff.mp h
  · exact .inl rfl
  · exact .inl rfl
  · obtain ⟨-, rfl⟩ | ⟨-, hfits, -⟩ := State.memWrite_error_iff.mp hwrite
    · exact .inr rfl
    · exact absurd (s.fitsSigned_readReg r) hfits

theorem execSb_raise_kind {ops : List Text} {s : State} {e : Error} (h : execSb ops s = .fault (.raise e)) :
    e.kind = .invalidOperandFormat ∨ (e.kind = .sizeMismatch ∧ s.block.overflow = .fault) ∨ e.kind = .outOfBounds := by
  obtain hkind | hlen := invalidOperandFormat_or_length_eq (execSb_of_length_ne s) h
  · exact .inl hkind
  obtain ⟨rt, m, rfl⟩ := List.length_eq_two.mp hlen
  obtain ⟨-, rfl⟩ | ⟨r, -, ⟨-, rfl⟩ | ⟨ref, -, hwrite⟩⟩ := execSb_pair_raise_iff.mp h
  · exact .inl rfl
  · exact .inl rfl
  · obtain ⟨-, rfl⟩ | ⟨-, -, hfault, rfl⟩ := State.memWrite_error_iff.mp hwrite
    · exact .inr (.inr rfl)
    · exact .inr (.inl ⟨rfl, hfault⟩)

/-- A timed no-op raises nothing (spec R501, R502). -/
theorem exec_ne_fault_of_timedNoOp {i : Instr} {ops : List Text} {s : State} {f : Fault}
    (hi : i = .jal ops ∨ i = .sub ops ∨ i = .and ops ∨ i = .or ops ∨ ∃ op, i = .other op ops) : exec i s ≠ .fault f := by
  rw [exec_eq_next_of_timedNoOp s hi]
  nofun

/-- Settles O34: each instruction raises the kinds its own lemma above names, and the five no-ops raise none. -/
theorem whichInstructionRaisesWhat : Obligations.WhichInstructionRaisesWhat := by
  intro i s e h
  cases i with
  | li ops => exact .inr (.inl ⟨execLi_raise_kind h, by simp [Instr.op, text]⟩)
  | la ops =>
    obtain hkind | hkind := execLa_raise_kind h
    · exact .inl ⟨hkind, by simp [Instr.op, text]⟩
    · exact .inr (.inl ⟨hkind, by simp [Instr.op, text]⟩)
  | add ops => exact .inr (.inl ⟨execAdd_raise_kind h, by simp [Instr.op, text]⟩)
  | addi ops => exact .inr (.inl ⟨execAddi_raise_kind h, by simp [Instr.op, text]⟩)
  | j ops =>
    obtain hkind | hkind := execJ_raise_kind h
    · exact .inl ⟨hkind, by simp [Instr.op, text]⟩
    · exact .inr (.inl ⟨hkind, by simp [Instr.op, text]⟩)
  | beq ops =>
    obtain hkind | hkind := execBeq_raise_kind h
    · exact .inl ⟨hkind, by simp [Instr.op, text]⟩
    · exact .inr (.inl ⟨hkind, by simp [Instr.op, text]⟩)
  | sw ops =>
    obtain hkind | hkind := execSw_raise_kind h
    · exact .inr (.inl ⟨hkind, by simp [Instr.op, text]⟩)
    · exact .inr (.inr (.inr ⟨hkind, by simp [Instr.op, text]⟩))
  | sb ops =>
    obtain hkind | ⟨hkind, hfault⟩ | hkind := execSb_raise_kind h
    · exact .inr (.inl ⟨hkind, by simp [Instr.op, text]⟩)
    · exact .inr (.inr (.inl ⟨hkind, rfl, hfault⟩))
    · exact .inr (.inr (.inr ⟨hkind, by simp [Instr.op, text]⟩))
  | jal ops => exact absurd h (exec_ne_fault_of_timedNoOp (.inl rfl))
  | sub ops => exact absurd h (exec_ne_fault_of_timedNoOp (.inr (.inl rfl)))
  | and ops => exact absurd h (exec_ne_fault_of_timedNoOp (.inr (.inr (.inl rfl))))
  | or ops => exact absurd h (exec_ne_fault_of_timedNoOp (.inr (.inr (.inr (.inl rfl)))))
  | other op ops => exact absurd h (exec_ne_fault_of_timedNoOp (.inr (.inr (.inr (.inr ⟨op, rfl⟩)))))

/-- Settles O38: the state was not Faulted, so the fault comes from the entry fetched here and now. -/
theorem faultChangesOnlyStatus : Obligations.FaultChangesOnlyStatus := by
  intro s after err i x hs h
  obtain ⟨_, _, _, _, hreport, heq⟩ := step_fault_iff.mp h
  cases heq
  obtain ⟨hfaulted, -⟩ | ⟨-, rfl, e, hf, htext, hx, hafter⟩ := stepReport_fault_iff.mp hreport
  · exact absurd hfaulted (State.notFaulted_iff.mp hs err i x)
  · exact ⟨hafter, rfl, e, hf, htext, hx⟩

end Sys2Proof.Machine

/-! # Cycle accounting

What a step does to the two counters, said once in terms of `weight`; a run inside one class adds that up. -/

namespace Sys2Proof.Machine

/-- A step that executes counts one instruction of the fetched entry's class (spec R641). -/
theorem stepReport_stepped_counters {s t : State} (h : stepReport s = .stepped t) :
    ∃ e, s.fetch (s.pc / 4) = some e ∧ t.cycles = s.cycles + 1 ∧ t.weighted = s.weighted + weight s.config e.cls := by
  obtain ⟨-, e, u, hf, hx, rfl⟩ := stepReport_stepped_iff.mp h
  obtain ⟨-, hcycles, hweighted, -⟩ := exec_next_rest hx
  exact ⟨e, hf, hcycles, hweighted⟩

/-- Settles O40: halting and faulting change the status alone, and the weights are those of `weight`. -/
theorem stepAdvancesCounters : Obligations.StepAdvancesCounters := by
  intro s
  refine ⟨fun t h => ?_, fun t h => ?_, fun err i x t h => ?_⟩
  · obtain ⟨e, hf, hcycles, hweighted⟩ := stepReport_stepped_counters h
    refine ⟨e, hf, hcycles, hweighted.trans ?_⟩
    cases e.cls with
    | r => rfl
    | i => rfl
    | j => rfl
  · obtain ⟨-, -, -, rfl⟩ := stepReport_noStep_iff.mp h
    exact ⟨rfl, rfl⟩
  · obtain ⟨-, rfl⟩ | ⟨-, -, e, -, -, -, rfl⟩ := stepReport_fault_iff.mp h
    · exact ⟨rfl, rfl⟩
    · exact ⟨rfl, rfl⟩

/-- With an entry to fetch, a step that goes on has executed it (spec R410, R411). -/
theorem stepReport_stepped_of_fetch {s t : State} {e : Entry} (hf : s.fetch (s.pc / 4) = some e) (h : step s = .next t) :
    stepReport s = .stepped t := by
  obtain h | h := step_next_iff.mp h
  · exact h
  · obtain ⟨-, hnone, -⟩ := stepReport_noStep_iff.mp h
    exact nomatch hf.symm.trans hnone

/-- `t` has counted `n` more instructions of one class than `s`, under the same configuration (spec R641). -/
structure Counted (cls : Cls) (n : Nat) (s t : State) : Prop where
  cycles   : t.cycles = s.cycles + n
  weighted : t.weighted = s.weighted + n * weight s.config cls
  config   : t.config = s.config

theorem step_counted {s t : State} {e : Entry} (hf : s.fetch (s.pc / 4) = some e) (h : step s = .next t) :
    Counted e.cls 1 s t := by
  obtain ⟨e', hf', hcycles, hweighted⟩ := stepReport_stepped_counters (stepReport_stepped_of_fetch hf h)
  obtain rfl := Option.some.inj (hf.symm.trans hf')
  obtain ⟨-, -, -, hconfig⟩ := stepNeverWritesProgram s t (.inl h)
  exact ⟨hcycles, by rw [hweighted, Nat.one_mul], hconfig⟩

theorem Counted.trans {cls : Cls} {m n : Nat} {s u t : State} (hsu : Counted cls m s u) (hut : Counted cls n u t) :
    Counted cls (m + n) s t where
  cycles := by rw [hut.cycles, hsu.cycles, Nat.add_assoc]
  weighted := by rw [hut.weighted, hsu.weighted, hsu.config, Nat.add_assoc, Nat.add_mul]
  config := hut.config.trans hsu.config

/-- A run that fetches an entry of one class before each of its `n` steps counts `n` instructions of it (spec R644). -/
theorem run_counted {n : Nat} {cls : Cls} {s t : State}
    (hclass : ∀ k, k < n → ∃ u e, Host.Core.run Sys2Proof.core k s = .next u ∧ u.fetch (u.pc / 4) = some e ∧ e.cls = cls)
    (hrun : Host.Core.run Sys2Proof.core n s = .next t) : Counted cls n s t := by
  induction n generalizing s with
  | zero =>
    obtain rfl : s = t := Host.Outcome.next.inj hrun
    exact ⟨rfl, by simp, rfl⟩
  | succ n ih =>
    obtain ⟨u, hstep, hrest⟩ := run_succ_next_iff.mp hrun
    have hfirst : Counted cls 1 s u := by
      obtain ⟨v, e, hv, hf, rfl⟩ := hclass 0 n.succ_pos
      obtain rfl : s = v := Host.Outcome.next.inj hv
      exact step_counted hf hstep
    have hlast : Counted cls n u t := ih (fun k hk => by
      obtain ⟨v, e, hv, hf, hcls⟩ := hclass (k + 1) (Nat.succ_lt_succ hk)
      obtain ⟨u', hstep', hrest'⟩ := run_succ_next_iff.mp hv
      obtain rfl := Host.Outcome.next.inj (hstep.symm.trans hstep')
      exact ⟨v, e, hrest', hf, hcls⟩) hrest
    rw [Nat.add_comm]
    exact hfirst.trans hlast

/-- Settles O53: LOAD sets both counters to 0 and keeps the frequency given to it, and the run counts from there. -/
theorem uniformClassTime : Obligations.UniformClassTime := by
  intro block lines c s t cls n hload hclass hrun
  obtain ⟨hcycles, hweighted, hconfig⟩ := run_counted hclass hrun
  obtain ⟨run, prog, labels, hcheck, -, -, -, rfl⟩ := load_ok_iff.mp hload
  obtain ⟨-, -, -, -, rfl⟩ := checkConfig_ok_iff.mp hcheck
  simp only [State.loaded_cycles, State.loaded_weighted, State.loaded_config, Nat.zero_add] at hcycles hweighted hconfig ⊢
  refine ⟨hcycles, hweighted, ?_⟩
  rw [State.elapsed, hweighted, hconfig, Nat.cast_mul]

end Sys2Proof.Machine

/-! # The state after LOAD and the reset state

LOAD and reset both leave a machine that has done nothing yet; they differ in the program, the labels and the parameters. -/

namespace Sys2Proof.Machine

/-- What the state after reset has whatever its program and parameters (spec R700). -/
structure State.Cleared (s : State) : Prop where
  regs     : ∀ r : RegIndex, s.regs[r] = 0#32
  recency  : s.recency = []
  pc       : s.pc = 0
  status   : s.status = .running
  cycles   : s.cycles = 0
  weighted : s.weighted = 0
  last     : s.last = none
  byte     : ∀ a, s.mem.byte a = 0#8
  tag      : ∀ a, s.mem.tag a = none

theorem State.cleared_loaded (block : Block) (run : RunConfig) (prog : List Entry) (labels : List (Text × Nat)) :
    (State.loaded block run prog labels).Cleared where
  regs r := Vector.getElem_replicate r.isLt
  recency := rfl
  pc := rfl
  status := rfl
  cycles := rfl
  weighted := rfl
  last := rfl
  byte _ := rfl
  tag _ := rfl

/-- Where no cycle is weighed yet, no time has passed, at any frequency (spec R640). -/
theorem State.Cleared.elapsed {s : State} (h : s.Cleared) : s.elapsed = 0 := by
  rw [State.elapsed, h.weighted, Nat.cast_zero, zero_div]

/-- Settles O48: LOAD and reset leave cleared states; what LOAD fixes for the run is what its checks accept. -/
theorem stateAfterLoad : Obligations.StateAfterLoad := by
  refine ⟨fun block lines c s h => ?_, fun f => ⟨rfl, rfl, rfl⟩, ?_⟩
  · obtain ⟨run, prog, labels, hcheck, hlines, -, -, rfl⟩ := load_ok_iff.mp h
    obtain ⟨-, hr, hi, hj, rfl⟩ := checkConfig_ok_iff.mp hcheck
    have hs := State.cleared_loaded block
      { freqHz := c.freqHz, weightR := c.weightR.toNat, weightI := c.weightI.toNat, weightJ := c.weightJ.toNat } prog labels
    exact ⟨hs.regs, hs.recency, hs.pc, hs.status, hs.cycles, hs.weighted, hs.elapsed, hs.last, hs.byte, hs.tag, hlines, rfl,
      rfl, Int.toNat_of_nonneg hr, Int.toNat_of_nonneg hi, Int.toNat_of_nonneg hj⟩
  · have hs : State.reset.Cleared := State.cleared_loaded _ _ _ _
    exact ⟨hs.regs, hs.pc, hs.status, hs.cycles, hs.weighted, hs.last, hs.recency, hs.byte, hs.tag⟩

/-- Without a program and without labels every clause on them holds (spec R204, R205, R209). -/
theorem State.progOk_loaded_nil (block : Block) (run : RunConfig) : (State.loaded block run [] []).ProgOk where
  entries := by simp
  short := by simp
  targets := by simp
  names := by simp

/-- The open parameters are positive whatever their values, and the default names are distinct (spec R12, R101). -/
theorem State.reset_paramsOk : State.reset.ParamsOk where
  memSize := Nat.succ_pos Config.memSizePred
  freqHz := Rat.mkRat_pos (Int.natCast_succ_pos Config.freqNumPred) (Nat.succ_ne_zero Config.freqDenPred)
  names := defaultRegisterNames.1

/-- Settles O45: the reset state is a loaded state, without a program and with lawful parameters. -/
theorem invariantAtReset : Obligations.InvariantAtReset :=
  State.Inv.loaded (State.progOk_loaded_nil Config.block Config.run) State.reset_paramsOk

end Sys2Proof.Machine
